-- ==== Sys2Proof/Word.lean ====
section
/-! DEFINITION. The two word types of the block: the 32-bit command and response word (00_scope R6, `CMDW`)
and the 8-bit byte of the packed buffer and of the text (00_scope R6, 10_state R40). -/

namespace Sys2Proof

/-- A command or response word (30_encoding R80, R88). Bit 0 is the least significant (00_scope R7). -/
abbrev Word := BitVec 32

/-- A packed byte, a channel value or a character code. -/
abbrev Byte := BitVec 8

end Sys2Proof
end

