-- ==== Sys2Proof/Syntax.lean ====
section
/-! DEFINITION. The fourteen commands of the block, one constructor per row of the opcode table (30_encoding R84).
Each operand has exactly the width of its field (30_encoding R81, R82, R83). -/

namespace Sys2Proof

/-- A decoded command. -/
inductive Instr where
  /-- NOP, 40_config R100 -/
  | nop
  /-- SETW, the image width in pixels, 40_config R101 -/
  | setw (imm16 : BitVec 16)
  /-- SETH, the image height in pixels, 40_config R102 -/
  | seth (imm16 : BitVec 16)
  /-- SETBS, the block size itself, 40_config R103 -/
  | setbs (imm4 : BitVec 4)
  /-- SETTH, the threshold, 40_config R104 -/
  | setth (imm8 : BitVec 8)
  /-- SETINV, 1 means invert, 40_config R105 -/
  | setinv (imm1 : BitVec 1)
  /-- SETBG, 0 is white and 1 is black, 40_config R106 -/
  | setbg (imm1 : BitVec 1)
  /-- START, 41_encoder R130 -/
  | start
  /-- PIXEL, one pixel's channels, 41_encoder R131 -/
  | pixel (r g b : BitVec 8)
  /-- FORMAT, 42_formatter R155 -/
  | format
  /-- TXT, 42_formatter R156 -/
  | txt
  /-- RDPB, a packed-buffer index, 43_readback R170 -/
  | rdpb (idx : BitVec 24)
  /-- RDREG, a register number, 43_readback R171 -/
  | rdreg (n : BitVec 4)
  /-- CLRERR, the flags to clear, 43_readback R172 -/
  | clrerr (mask : BitVec 5)
deriving DecidableEq, Repr

end Sys2Proof
end

