-- ==== Sys2Proof/WellFormed.lean ====
section
/-! DEFINITION. Source lines of the assembly language and the check on them (30_encoding R89, R90).

An `Instr` cannot be ill-formed: its operand types are its fields. A source line can, because its operands are
numbers of any size: "An operand outside its range is an assembly error. The assembler emits no word for it". -/

namespace Sys2Proof

/-- One line of assembly: a command of 30_encoding R89 or a pseudo-instruction of R90, its operands as numbers. -/
inductive AsmLine where
  | nop
  | setw (w : Nat)
  | seth (h : Nat)
  | setbs (bs : Nat)
  | setth (t : Nat)
  | setinv (b : Nat)
  | setbg (b : Nat)
  | start
  | pixel (r g b : Nat)
  | format
  | txt
  | rdpb (idx : Nat)
  | rdreg (n : Nat)
  | clrerr (mask : Nat)
  /-- `PIXA r, g, b, a`: the alpha is dropped -/
  | pixa (r g b a : Nat)
  /-- `CLRERR` with no operand -/
  | clrerrAll
  /-- `RDSTAT` -/
  | rdstat
  /-- `CONFIG w, h, bs, t, inv, bg` -/
  | config (w h bs t inv bg : Nat)
deriving DecidableEq, Repr

/-- Every operand is in its range (30_encoding R89). SETBS admits 0..15 here: 2, 4, 8 are checked at execution
(R85). The alpha of PIXA is a byte, like the other channels (20_memory R63; log 11). -/
def AsmLine.wf : AsmLine → Bool
  | .nop | .start | .format | .txt | .clrerrAll | .rdstat => true
  | .setw w => decide (w ≤ 65535)
  | .seth h => decide (h ≤ 65535)
  | .setbs bs => decide (bs ≤ 15)
  | .setth t => decide (t ≤ 255)
  | .setinv b => decide (b ≤ 1)
  | .setbg b => decide (b ≤ 1)
  | .pixel r g b => decide (r ≤ 255) && decide (g ≤ 255) && decide (b ≤ 255)
  | .rdpb idx => decide (idx < 2 ^ 24)
  | .rdreg n => decide (n ≤ 15)
  | .clrerr mask => decide (mask ≤ 31)
  | .pixa r g b a => decide (r ≤ 255) && decide (g ≤ 255) && decide (b ≤ 255) && decide (a ≤ 255)
  | .config w h bs t inv bg =>
    decide (w ≤ 65535) && decide (h ≤ 65535) && decide (bs ≤ 15) && decide (t ≤ 255) && decide (inv ≤ 1)
      && decide (bg ≤ 1)

end Sys2Proof
end

