-- ==== Sys2Proof/Decode.lean ====
section
/-! DEFINITION. The opcode map, the decoder and the encoder of the command words (30_encoding R80 to R87), and the
expansion of assembly lines into commands and words (30_encoding R89, R90). -/

namespace Sys2Proof

/-- One row of the opcode map (30_encoding R84): the match and mask words, and how the fields are read. -/
structure OpRow where
  /-- the "match" column -/
  pattern : Word
  /-- the "mask" column: OP and every reserved bit -/
  mask : Word
  /-- the command with its fields read as R81, R82 or R83 give them -/
  build : Word → Instr

/-- The opcode map of 30_encoding R84, in its order. OP 0xE and 0xF have no row. -/
def opcodeMap : List OpRow :=
  [ ⟨0x00000000, 0xFFFFFFFF, fun _ => .nop⟩,
    ⟨0x10000000, 0xFFFF0000, fun w => .setw (w.extractLsb' 0 16)⟩,
    ⟨0x20000000, 0xFFFF0000, fun w => .seth (w.extractLsb' 0 16)⟩,
    ⟨0x30000000, 0xFFFFFFF0, fun w => .setbs (w.extractLsb' 0 4)⟩,
    ⟨0x40000000, 0xFFFFFF00, fun w => .setth (w.extractLsb' 0 8)⟩,
    ⟨0x50000000, 0xFFFFFFFE, fun w => .setinv (w.extractLsb' 0 1)⟩,
    ⟨0x60000000, 0xFFFFFFFE, fun w => .setbg (w.extractLsb' 0 1)⟩,
    ⟨0x70000000, 0xFFFFFFFF, fun _ => .start⟩,
    ⟨0x80000000, 0xFF000000,
      fun w => .pixel (w.extractLsb' 16 8) (w.extractLsb' 8 8) (w.extractLsb' 0 8)⟩,
    ⟨0x90000000, 0xFFFFFFFF, fun _ => .format⟩,
    ⟨0xA0000000, 0xFFFFFFFF, fun _ => .txt⟩,
    ⟨0xB0000000, 0xFF000000, fun w => .rdpb (w.extractLsb' 0 24)⟩,
    ⟨0xC0000000, 0xFFFFFFF0, fun w => .rdreg (w.extractLsb' 0 4)⟩,
    ⟨0xD0000000, 0xFFFFFFE0, fun w => .clrerr (w.extractLsb' 0 5)⟩ ]

/-- `w & mask = match` (30_encoding R84). -/
def OpRow.matches (row : OpRow) (w : Word) : Bool := w &&& row.mask == row.pattern

/-- 30_encoding R85: the first matching row gives the command. -/
def decode (w : Word) : Option Instr :=
  (opcodeMap.find? fun row => row.matches w).map fun row => row.build w

/-- Why the decoder refuses a word, by name: the outcome ILLEGAL has two causes (30_encoding R86). -/
inductive IllegalWord where
  /-- OP is 0xE or 0xF -/
  | reservedOp
  /-- OP is assigned and a reserved bit is 1 -/
  | reservedBit
deriving DecidableEq, Repr

/-- The name of the refusal, for a word that `decode` refuses (30_encoding R86). -/
def illegalReason (w : Word) : Option IllegalWord :=
  match decode w with
  | some _ => none
  | none => some (if 0xE ≤ w.toNat / 2 ^ 28 then .reservedOp else .reservedBit)

/-- OP in bits [31:28] and one payload, zero-extended into [27:0] (30_encoding R80, R81). -/
def commandWord (op : BitVec 4) {n : Nat} (payload : BitVec n) : Word :=
  op ++ payload.setWidth 28

/-- The command word of an instruction (30_encoding R81, R82, R83, R84). -/
def encode : Instr → Word
  | .nop => commandWord 0x0 (0 : BitVec 28)
  | .setw imm16 => commandWord 0x1 imm16
  | .seth imm16 => commandWord 0x2 imm16
  | .setbs imm4 => commandWord 0x3 imm4
  | .setth imm8 => commandWord 0x4 imm8
  | .setinv imm1 => commandWord 0x5 imm1
  | .setbg imm1 => commandWord 0x6 imm1
  | .start => commandWord 0x7 (0 : BitVec 28)
  | .pixel r g b => commandWord 0x8 (r ++ g ++ b)
  | .format => commandWord 0x9 (0 : BitVec 28)
  | .txt => commandWord 0xA (0 : BitVec 28)
  | .rdpb idx => commandWord 0xB idx
  | .rdreg n => commandWord 0xC n
  | .clrerr mask => commandWord 0xD mask

/-- The instruction read from a command whose bits are `w`, of which `nbits` are given and the rest are 0. The
channel carries the whole word (20_memory R67), so there is no byte order to lay out. -/
def decodeTableWord (nbits w : Nat) : Option Instr := decode (BitVec.ofNat 32 (w % 2 ^ nbits))

/-- The commands an assembly line stands for (30_encoding R89, R90), whatever its operands; `assemble` checks them. -/
def AsmLine.expand : AsmLine → List Instr
  | .nop => [.nop]
  | .setw w => [.setw (BitVec.ofNat 16 w)]
  | .seth h => [.seth (BitVec.ofNat 16 h)]
  | .setbs bs => [.setbs (BitVec.ofNat 4 bs)]
  | .setth t => [.setth (BitVec.ofNat 8 t)]
  | .setinv b => [.setinv (BitVec.ofNat 1 b)]
  | .setbg b => [.setbg (BitVec.ofNat 1 b)]
  | .start => [.start]
  | .pixel r g b => [.pixel (BitVec.ofNat 8 r) (BitVec.ofNat 8 g) (BitVec.ofNat 8 b)]
  | .format => [.format]
  | .txt => [.txt]
  | .rdpb idx => [.rdpb (BitVec.ofNat 24 idx)]
  | .rdreg n => [.rdreg (BitVec.ofNat 4 n)]
  | .clrerr mask => [.clrerr (BitVec.ofNat 5 mask)]
  | .pixa r g b _ => [.pixel (BitVec.ofNat 8 r) (BitVec.ofNat 8 g) (BitVec.ofNat 8 b)]
  | .clrerrAll => [.clrerr 0x1F]
  | .rdstat => [.rdreg 6]
  | .config w h bs t inv bg =>
    [.setw (BitVec.ofNat 16 w), .seth (BitVec.ofNat 16 h), .setbs (BitVec.ofNat 4 bs), .setth (BitVec.ofNat 8 t),
      .setinv (BitVec.ofNat 1 inv), .setbg (BitVec.ofNat 1 bg)]

/-- The words of an assembly line, or an assembly error (30_encoding R89: "The assembler emits no word for it"). -/
def AsmLine.assemble (line : AsmLine) : Option (List Word) :=
  if line.wf then some (line.expand.map encode) else none

end Sys2Proof
end

