-- ==== Sys2Proof/Machine/State.lean ====
section
/-! DEFINITION. The state of the block as plain data (10_state R20 to R45), its reset value, and the reasons a step
can stop. -/

namespace Sys2Proof.Machine

/-- PHASE (10_state R30), the state of the conversion. "Value 3 is never produced": it has no constructor (log 3). -/
inductive Phase where
  /-- no conversion has started since reset -/
  | idle
  /-- START was accepted and fewer than NPIX pixels since -/
  | encoding
  /-- every one of the NPIX pixels has been accepted -/
  | encoded
deriving DecidableEq, Repr

/-- The five error codes (60_exceptions R190). -/
inductive ErrorCode where
  /-- code 0: an ILLEGAL word, or RDREG of a reserved number -/
  | ill
  /-- code 1: SETBS outside 2, 4, 8 -/
  | cfg
  /-- code 2: a command in a phase that does not accept it -/
  | seq
  /-- code 3: START whose packed length exceeds PBUF_BYTES -/
  | cap
  /-- code 4: RDPB at or above PLEN -/
  | range
deriving DecidableEq, Repr

/-- What the host drives on the block's input ports at one edge (10_state R20). -/
structure Pins where
  /-- `rst`, synchronous reset, active high -/
  rst : Bool := false
  /-- `cmd_valid`, the host offers a command word -/
  cmdValid : Bool := false
  /-- `cmd_data`, the command word -/
  cmdData : Word := 0
  /-- `rsp_ready`, the host can take the response -/
  rspReady : Bool := false
deriving DecidableEq, Repr

/-- The bytes of PBUF that have a value: index and byte, indexes strictly rising (10_state R40). An index that is
not listed has no value, so no entry can equal it (log 2). -/
abbrev Memory := List Host.Cell

/-- The canonical form of a memory: indexes strictly rising. -/
abbrev Memory.wf (m : Memory) : Prop := m.Pairwise fun c d => c.1 < d.1

/-- The record of 10_state R22, the response of the command channel (10_state R20, R21), and the host's input. -/
structure State where
  /-- WIDTH, R23 -/
  width : BitVec 16
  /-- HEIGHT, R24 -/
  height : BitVec 16
  /-- BSIZE, R25 -/
  bsize : BitVec 4
  /-- THRESH, R26 -/
  thresh : BitVec 8
  /-- INVERT, R27 -/
  invert : BitVec 1
  /-- BG, R28 -/
  bg : BitVec 1
  /-- A_BS, R29 -/
  aBs : BitVec 4
  /-- A_TH, R29 -/
  aTh : BitVec 8
  /-- A_INV, R29 -/
  aInv : BitVec 1
  /-- PHASE, R30 -/
  phase : Phase
  /-- NPIX, R31 -/
  npix : BitVec 32
  /-- PLEN, R32 -/
  plen : BitVec 32
  /-- PIDX, R33 -/
  pidx : BitVec 32
  /-- TLEN, R34 -/
  tlen : BitVec 32
  /-- TIDX, R35 -/
  tidx : BitVec 32
  /-- LUM, R36 -/
  lum : BitVec 22
  /-- ERR, R37 -/
  err : BitVec 5
  /-- PBUF, R40 -/
  pbuf : Memory
  /-- `rsp_data` while `rsp_valid` = 1, else none (R20, R21; log 6) -/
  rsp : Option Word
  /-- the model's own: what the host drives at the coming edges, oldest first (log 4) -/
  inputs : List Pins
deriving DecidableEq, Repr

/-- The reset state: the table of 10_state R45 (70_reset_and_hazards R210, R211). PBUF is unspecified there: no byte
has a value (DESIGN CHOICE, log 2). The host has driven nothing yet (DESIGN CHOICE, log 4). -/
def State.reset : State where
  width := 0
  height := 0
  bsize := 8
  thresh := 127
  invert := 0
  bg := 0
  aBs := 8
  aTh := 127
  aInv := 0
  phase := .idle
  npix := 0
  plen := 0
  pidx := 0
  tlen := 0
  tidx := 0
  lum := 0
  err := 0
  pbuf := []
  rsp := none
  inputs := []

/-- The reasons the machine stops. The spec gives the block no fault (60_exceptions R190): both are states that no run
from reset reaches. -/
inductive Fault where
  /-- Raised by a PBUF access at an index at or above PBUF_BYTES, which does not exist (10_state R40). Safe. -/
  | pbufOutside (index : Nat)
  /-- Raised by a read of a PBUF byte that nothing has written since reset (93_implementation_defined I1: "A model may
  hold these bytes as "no value" and fault on a read"). Safe. -/
  | pbufNoValue (index : Nat)
deriving DecidableEq, Repr

/-- The reasons an instruction has no meaning. -/
inductive Refusal where
  /-- Raised by an arm of `exec` whose instruction is not modelled yet. No arm raises it. Safe. -/
  | notModelled (mnemonic : String)
deriving DecidableEq, Repr

end Sys2Proof.Machine
end

