-- ==== Sys2Proof/Machine/Flags.lean ====
section
/-! DEFINITION. The error flags (10_state R37, 60_exceptions R190) and the read-only views STATUS and ACFG
(10_state R38, R39). -/

namespace Sys2Proof.Machine

/-- The two bits of PHASE (10_state R30). -/
def Phase.code : Phase → BitVec 2
  | .idle => 0
  | .encoding => 1
  | .encoded => 2

/-- The error code's number, which is its bit in ERR (60_exceptions R190). -/
def ErrorCode.number : ErrorCode → Nat
  | .ill => 0
  | .cfg => 1
  | .seq => 2
  | .cap => 3
  | .range => 4

/-- ERR with a 1 at the code's bit and nowhere else (10_state R37). -/
def ErrorCode.flag (code : ErrorCode) : BitVec 5 := 1#5 <<< code.number

/-- `ERR[code] <- 1`; the other flags are sticky (60_exceptions R191, R201). -/
def raiseFlag (err : BitVec 5) (code : ErrorCode) : BitVec 5 := err ||| code.flag

/-- `ERR <- ERR AND NOT mask`, write-1-to-clear (43_readback R172). -/
def clearFlags (err mask : BitVec 5) : BitVec 5 := err &&& ~~~mask

/-- TXTPEND: 1 while TIDX < TLEN (10_state R38). -/
def txtPending (s : State) : BitVec 1 := if s.tidx.toNat < s.tlen.toNat then 1 else 0

/-- STATUS = zext_32 of ERR, 0, TXTPEND, PHASE (10_state R38). -/
def statusView (s : State) : Word := (s.err ++ 0#1 ++ txtPending s ++ s.phase.code).setWidth 32

/-- ACFG = zext_32 of A_INV, A_TH, A_BS (10_state R39). -/
def acfgView (s : State) : Word := (s.aInv ++ s.aTh ++ s.aBs).setWidth 32

end Sys2Proof.Machine
end

