-- ==== Sys2Proof/Machine/Operands.lean ====
section
/-! DEFINITION. The operand checks made at execution (30_encoding R85): the legal block sizes (40_config R103) and the
register numbers of RDREG (10_state R43). -/

namespace Sys2Proof.Machine

/-- The block sizes SETBS accepts (40_config R103). -/
def legalBlockSize (bs : BitVec 4) : Bool := bs == 2 || bs == 4 || bs == 8

/-- RegValue(n) (10_state R43): the register zero-extended to 32 bits; none for the reserved numbers 14 and 15. -/
def regValue (n : BitVec 4) (s : State) : Option Word :=
  match n.toNat with
  | 0 => some (s.width.setWidth 32)
  | 1 => some (s.height.setWidth 32)
  | 2 => some (s.bsize.setWidth 32)
  | 3 => some (s.thresh.setWidth 32)
  | 4 => some (s.invert.setWidth 32)
  | 5 => some (s.bg.setWidth 32)
  | 6 => some (statusView s)
  | 7 => some s.npix
  | 8 => some s.plen
  | 9 => some s.pidx
  | 10 => some s.tlen
  | 11 => some s.tidx
  | 12 => some (s.lum.setWidth 32)
  | 13 => some (acfgView s)
  | _ => none

end Sys2Proof.Machine
end

