-- ==== Sys2Proof/Config.lean ====
section
/-! DEFINITION. What an implementation fixes and the spec leaves open: the packed-buffer capacity (00_scope R6, D6). -/

namespace Sys2Proof

/-- DESIGN CHOICE (log 1), safe: PBUF_BYTES is OPEN in 00_scope R6, so it is an opaque constant. This is
PBUF_BYTES - 1, whose 24 bits make the range 1 .. 2^24 of R6 hold by construction. -/
opaque Config.pbufBytesLessOne : BitVec 24

/-- PBUF_BYTES, the packed-buffer capacity in bytes (00_scope R6, 93_implementation_defined I11). -/
def Config.pbufBytes : Nat := Config.pbufBytesLessOne.toNat + 1

end Sys2Proof
end

