-- ==== Sys2Proof/Machine/Ops.lean ====
section
/-! DEFINITION. The shared operations: PBUF reads and writes (00_scope R8, 20_memory R61), accepting a command with a
response (30_encoding R88), and rejecting one with an error (60_exceptions R191), which is all the exception entry
the block has (60_exceptions R201: there is no trap and no return). -/

namespace Sys2Proof.Machine

open Host

/-- The value at an index, if it has one. -/
def Memory.read (k : Nat) : Memory → Option Byte
  | [] => none
  | c :: m => if c.1 = k then some c.2 else Memory.read k m

/-- Store a byte at its place in the rising order. -/
def Memory.write (k : Nat) (v : Byte) : Memory → Memory
  | [] => [(k, v)]
  | c :: m => if k < c.1 then (k, v) :: c :: m else if k = c.1 then (k, v) :: m else c :: Memory.write k v m

/-- `MemRead(k, 1)` (00_scope R8). An index at or above PBUF_BYTES does not exist (10_state R40); a byte without a
value faults (log 2). -/
def memRead (k : Nat) (s : State) : Except Fault Byte :=
  if k < Config.pbufBytes then
    match s.pbuf.read k with
    | some v => .ok v
    | none => .error (.pbufNoValue k)
  else .error (.pbufOutside k)

/-- `MemWrite(k, 1, v)` (00_scope R8). -/
def memWrite (k : Nat) (v : Byte) (s : State) : Except Fault State :=
  if k < Config.pbufBytes then .ok { s with pbuf := s.pbuf.write k v } else .error (.pbufOutside k)

/-- `for k in 0 .. len-1: MemWrite(k, 1, 0x00)` (41_encoder R130). -/
def zeroFill : Nat → State → Except Fault State
  | 0, s => .ok s
  | len + 1, s =>
    match zeroFill len s with
    | .ok s' => memWrite len 0 s'
    | .error f => .error f

/-- Go on with the result of a memory access, or stop with its fault. -/
def orFault {α : Type} (x : Except Fault α) (k : α → Outcome State Fault Refusal) : Outcome State Fault Refusal :=
  match x with
  | .ok a => k a
  | .error f => .fault f

/-- An accepted command: its effect stands, and the response word is presented (10_state R21, 30_encoding R88;
the channel is looked at by the step, not here: log 10). -/
def accept (response : Word) (s : State) : Outcome State Fault Refusal := .next { s with rsp := some response }

/-- `raise Error(code)`: "exactly these effects: `ERR[code] <- 1` and `rsp <- 0x00000000`" (60_exceptions R191). -/
def reject (code : ErrorCode) (s : State) : Outcome State Fault Refusal :=
  .next { s with err := raiseFlag s.err code, rsp := some 0 }

/-- `ceil(a / b)` for b > 0 (00_scope R8). -/
def ceilDiv (a b : Nat) : Nat := (a + b - 1) / b

end Sys2Proof.Machine
end

