-- ==== Sys2Proof/Machine/Configuration.lean ====
section
/-! DEFINITION. NOP and the configuration commands (40_config R100 to R107). Each is accepted in every phase and writes
one register. -/

namespace Sys2Proof.Machine

open Host

/-- NOP (40_config R100). -/
def execNop (s : State) : Outcome State Fault Refusal := accept 0 s

/-- SETW (40_config R101). -/
def execSetw (imm16 : BitVec 16) (s : State) : Outcome State Fault Refusal := accept 0 { s with width := imm16 }

/-- SETH (40_config R102). -/
def execSeth (imm16 : BitVec 16) (s : State) : Outcome State Fault Refusal := accept 0 { s with height := imm16 }

/-- SETBS (40_config R103): CFG and no write outside 2, 4, 8. -/
def execSetbs (imm4 : BitVec 4) (s : State) : Outcome State Fault Refusal :=
  if legalBlockSize imm4 then accept 0 { s with bsize := imm4 } else reject .cfg s

/-- SETTH (40_config R104). -/
def execSetth (imm8 : BitVec 8) (s : State) : Outcome State Fault Refusal := accept 0 { s with thresh := imm8 }

/-- SETINV (40_config R105). -/
def execSetinv (imm1 : BitVec 1) (s : State) : Outcome State Fault Refusal := accept 0 { s with invert := imm1 }

/-- SETBG (40_config R106). -/
def execSetbg (imm1 : BitVec 1) (s : State) : Outcome State Fault Refusal := accept 0 { s with bg := imm1 }

end Sys2Proof.Machine
end

