-- ==== Sys2Proof/Machine/Encoder.lean ====
section
/-! DEFINITION. The encoder: the grayscale converter, the threshold comparator and the bit-packer as functions
(41_encoder R120 to R129), and START and PIXEL (R130, R131). -/

namespace Sys2Proof.Machine

open Host

/-- W = 2126*r + 7152*g + 722*b, 10000 times the luminance (41_encoder R120). -/
def scaledLuminance (r g b : Byte) : Nat := 2126 * r.toNat + 7152 * g.toNat + 722 * b.toNat

/-- The luminance itself, an exact number (41_encoder R120): 0.2126*r + 0.7152*g + 0.0722*b. No command computes it. -/
def luminance (r g b : Byte) : Rat := 0.2126 * r.toNat + 0.7152 * g.toNat + 0.0722 * b.toNat

/-- Threshold(W, T): 1 if W > 10000 * T, strictly (41_encoder R121). -/
def thresholdBit (w : Nat) (t : BitVec 8) : BitVec 1 := if w > 10000 * t.toNat then 1 else 0

/-- Decide(r, g, b, T, inv): the decided value, after inversion (41_encoder R122). -/
def decidedBit (r g b : Byte) (t : BitVec 8) (inv : BitVec 1) : BitVec 1 :=
  thresholdBit (scaledLuminance r g b) t ^^^ inv

/-- byteIndex = i div bs (41_encoder R123). -/
def byteIndex (bs i : Nat) : Nat := i / bs

/-- bitPos = bs - 1 - (i mod bs) (41_encoder R123): the first pixel of a block in its most significant used bit. -/
def bitPos (bs i : Nat) : Nat := bs - 1 - i % bs

/-- The clear-then-set of one bit (41_encoder R124). -/
def setBitTo (old : Byte) (pos : Nat) (v : BitVec 1) : Byte :=
  (old &&& ~~~(1#8 <<< pos)) ||| (v.setWidth 8 <<< pos)

/-- The preview pixel of a decided value, as R, G, B, A bytes from the top (41_encoder R127). -/
def previewWord (v : BitVec 1) : Word := if v = 1 then 0xFFFFFFFF else 0x000000FF

/-- A pixel's channels as the host sends them (41_encoder R129). -/
structure Pixel where
  r : Byte
  g : Byte
  b : Byte
deriving DecidableEq, Repr

/-- The decided bit of pixel `i` put into a whole buffer (the loop body of 41_encoder R129). -/
def packInto (bs i : Nat) (v : BitVec 1) (buf : List Byte) : List Byte :=
  buf.modify (byteIndex bs i) fun old => setBitTo old (bitPos bs i) v

/-- The loop of 41_encoder R129 from pixel number `i` on. -/
def encodeFrom (bs : Nat) (t : BitVec 8) (inv : BitVec 1) : Nat → List Pixel → List Byte → List Byte
  | _, [], buf => buf
  | i, p :: ps, buf => encodeFrom bs t inv (i + 1) ps (packInto bs i (decidedBit p.r p.g p.b t inv) buf)

/-- Encode(p, bs, T, inv), the source's encoder as one function (41_encoder R129). The commands START and PIXEL do the
same work in state; that they agree is 41_encoder R132. -/
def encodePixels (bs : Nat) (t : BitVec 8) (inv : BitVec 1) (ps : List Pixel) : List Byte :=
  encodeFrom bs t inv 0 ps (List.replicate (ceilDiv ps.length bs) 0)

/-- What START latches and clears (41_encoder R130), for `n` pixels in `len` bytes; the zeroing of PBUF apart. -/
def beginConversion (n len : Nat) (s : State) : State :=
  { s with
    aBs := s.bsize
    aTh := s.thresh
    aInv := s.invert
    npix := BitVec.ofNat 32 n
    plen := BitVec.ofNat 32 len
    pidx := 0
    tlen := 0
    tidx := 0
    phase := if n = 0 then .encoded else .encoding }

/-- START (41_encoder R130): CAP when the packed length exceeds PBUF_BYTES, and then nothing else happens. -/
def execStart (s : State) : Outcome State Fault Refusal :=
  let n := s.width.toNat * s.height.toNat
  let len := ceilDiv n s.bsize.toNat
  if len > Config.pbufBytes then reject .cap s
  else orFault (zeroFill len (beginConversion n len s)) (accept 0)

/-- The bit-packer's read-modify-write of pixel `i` under A_BS (41_encoder R123, R124). -/
def packPixel (i : Nat) (v : BitVec 1) (s : State) : Except Fault State :=
  match memRead (byteIndex s.aBs.toNat i) s with
  | .ok old => memWrite (byteIndex s.aBs.toNat i) (setBitTo old (bitPos s.aBs.toNat i) v) s
  | .error f => .error f

/-- What an accepted PIXEL updates beside PBUF (41_encoder R131): LUM, PIDX, and PHASE on the last pixel. -/
def countPixel (w : Nat) (s : State) : State :=
  { s with
    lum := BitVec.ofNat 22 w
    pidx := s.pidx + 1
    phase := if s.pidx + 1 = s.npix then .encoded else s.phase }

/-- PIXEL (41_encoder R131): SEQ unless a conversion is taking pixels. -/
def execPixel (r g b : BitVec 8) (s : State) : Outcome State Fault Refusal :=
  if s.phase = .encoding then
    let v := decidedBit r g b s.aTh s.aInv
    orFault (packPixel s.pidx.toNat v s) fun s' => accept (previewWord v) (countPixel (scaledLuminance r g b) s')
  else reject .seq s

end Sys2Proof.Machine
end

