-- ==== Sys2Proof/Machine/Formatter.lean ====
section
/-! DEFINITION. The packed-bitmap formatter: the text as a function of the packed bytes (42_formatter R150 to R154), and
FORMAT and TXT (R155, R156). -/

namespace Sys2Proof.Machine

open Host

/-- The line break LF (42_formatter R152). -/
def charLF : Byte := 0x0A
/-- The comma (42_formatter R152). -/
def charComma : Byte := 0x2C
/-- The digit 0 (42_formatter R152). -/
def charZero : Byte := 0x30
/-- The letter x (42_formatter R152). -/
def charX : Byte := 0x78

/-- HexDigit(d), lowercase (42_formatter R152). -/
def hexDigit (d : BitVec 4) : Byte :=
  if d.toNat ≤ 9 then BitVec.ofNat 8 (0x30 + d.toNat) else BitVec.ofNat 8 (0x61 + (d.toNat - 10))

/-- The digit of bits [7:4] of a byte. -/
def highDigit (x : Byte) : Byte := hexDigit (x.extractLsb' 4 4)
/-- The digit of bits [3:0] of a byte. -/
def lowDigit (x : Byte) : Byte := hexDigit (x.extractLsb' 0 4)

/-- The token of a byte, "0x" and Hex2 (42_formatter R150). -/
def token (x : Byte) : List Byte := [charZero, charX, highDigit x, lowDigit x]

/-- The loop of FormatText from byte number `j` on: token, comma, and LF after every 8th comma (42_formatter R150). -/
def tokensFrom : Nat → List Byte → List Byte
  | _, [] => []
  | j, x :: xs => token x ++ [charComma] ++ (if (j + 1) % 8 = 0 then [charLF] else []) ++ tokensFrom (j + 1) xs

/-- StripTrailingWhitespace (42_formatter R150): "the only whitespace FormatText emits is LF". -/
def stripTrailing (text : List Byte) : List Byte := (text.reverse.dropWhile fun c => c == charLF).reverse

/-- FormatText(b) (42_formatter R150): strip, then remove exactly one trailing comma; an empty text stays empty. -/
def formatText (bytes : List Byte) : List Byte := (stripTrailing (tokensFrom 0 bytes)).dropLast

/-- TextLen(n) (42_formatter R151). -/
def textLen (n : Nat) : Nat := if n = 0 then 0 else 5 * n - 1 + (n - 1) / 8

/-- What stands at a position of the text: a fixed character, or a digit of one byte (42_formatter R153). -/
inductive Glyph where
  | fixed (c : Byte)
  | high (j : Nat)
  | low (j : Nat)
deriving DecidableEq, Repr

/-- The glyph at position `t` (42_formatter R153): groups of 41 positions, 8 tokens of 5 and one LF. -/
def glyphAt (t : Nat) : Glyph :=
  let r := t % 41
  let j := 8 * (t / 41) + r / 5
  if r = 40 then .fixed charLF
  else match r % 5 with
    | 0 => .fixed charZero
    | 1 => .fixed charX
    | 2 => .high j
    | 3 => .low j
    | _ => .fixed charComma

/-- CharAt(b, t) on a list of bytes (42_formatter R153). -/
def charAt (bytes : List Byte) (t : Nat) : Byte :=
  match glyphAt t with
  | .fixed c => c
  | .high j => highDigit (bytes.getD j 0)
  | .low j => lowDigit (bytes.getD j 0)

/-- CharAt(PBUF[0 .. PLEN-1], t) by MemRead of the one byte the token needs (42_formatter R156, 20_memory R61). -/
def textChar (t : Nat) (s : State) : Except Fault Byte :=
  match glyphAt t with
  | .fixed c => .ok c
  | .high j => (memRead j s).map highDigit
  | .low j => (memRead j s).map lowDigit

/-- FORMAT (42_formatter R155): SEQ unless the conversion is complete. -/
def execFormat (s : State) : Outcome State Fault Refusal :=
  if s.phase = .encoded then accept 0 { s with tlen := BitVec.ofNat 32 (textLen s.plen.toNat), tidx := 0 }
  else reject .seq s

/-- The TXT response that carries a character: VALID is bit 8 (42_formatter R156). -/
def textResponse (c : Byte) : Word := 0x100 ||| c.setWidth 32

/-- TXT (42_formatter R156): the next character, or 0 at the end of the text. No phase rejects it. -/
def execTxt (s : State) : Outcome State Fault Refusal :=
  if s.tidx.toNat < s.tlen.toNat then
    orFault (textChar s.tidx.toNat s) fun c => accept (textResponse c) { s with tidx := s.tidx + 1 }
  else accept 0 s

end Sys2Proof.Machine
end

