-- ==== Sys2Proof/Machine/Readback.lean ====
section
/-! DEFINITION. Readback and error clearing: RDPB, RDREG, CLRERR (43_readback R170 to R172). -/

namespace Sys2Proof.Machine

open Host

/-- RDPB (43_readback R170): SEQ before RANGE (60_exceptions R197). -/
def execRdpb (idx : BitVec 24) (s : State) : Outcome State Fault Refusal :=
  if s.phase = .encoded then
    if idx.toNat ≥ s.plen.toNat then reject .range s
    else orFault (memRead idx.toNat s) fun v => accept (v.setWidth 32) s
  else reject .seq s

/-- RDREG (43_readback R171): ILL for the reserved numbers 14 and 15. -/
def execRdreg (n : BitVec 4) (s : State) : Outcome State Fault Refusal :=
  match regValue n s with
  | some v => accept v s
  | none => reject .ill s

/-- CLRERR (43_readback R172). -/
def execClrerr (mask : BitVec 5) (s : State) : Outcome State Fault Refusal :=
  accept 0 { s with err := clearFlags s.err mask }

end Sys2Proof.Machine
end

