-- ==== Sys2Proof/Machine/Dispatch.lean ====
section
/-! DEFINITION. The dispatch of each command to its meaning: one arm per row of the opcode table (30_encoding R84). -/

namespace Sys2Proof.Machine

open Host

def exec (i : Instr) (s : State) : Host.Outcome State Fault Refusal :=
  match i with
  | .nop => Sys2Proof.Machine.execNop s
  | .setw imm16 => Sys2Proof.Machine.execSetw imm16 s
  | .seth imm16 => Sys2Proof.Machine.execSeth imm16 s
  | .setbs imm4 => Sys2Proof.Machine.execSetbs imm4 s
  | .setth imm8 => Sys2Proof.Machine.execSetth imm8 s
  | .setinv imm1 => Sys2Proof.Machine.execSetinv imm1 s
  | .setbg imm1 => Sys2Proof.Machine.execSetbg imm1 s
  | .start => Sys2Proof.Machine.execStart s
  | .pixel r g b => Sys2Proof.Machine.execPixel r g b s
  | .format => Sys2Proof.Machine.execFormat s
  | .txt => Sys2Proof.Machine.execTxt s
  | .rdpb idx => Sys2Proof.Machine.execRdpb idx s
  | .rdreg n => Sys2Proof.Machine.execRdreg n s
  | .clrerr mask => Sys2Proof.Machine.execClrerr mask s

end Sys2Proof.Machine
end

