-- ==== Sys2Proof/Machine/Channel.lean ====
section
/-! DEFINITION. The command channel (10_state R20, R21): one command at command level, one edge of the handshake, reset
(70_reset_and_hazards R210), and sequences of commands with their responses. -/

namespace Sys2Proof.Machine

open Host

/-- One command word as one atomic step (00_scope R9): a word that decodes runs, an ILLEGAL word is rejected with ILL
(30_encoding R85, R86). -/
def runWord (w : Word) (s : State) : Outcome State Fault Refusal :=
  match decode w with
  | some i => exec i s
  | none => reject .ill s

/-- `cmd_ready` (10_state R21, 70_reset_and_hazards R210): 1 when no response is outstanding and `rst` is low (log 7). -/
def cmdReady (p : Pins) (s : State) : Bool := !p.rst && s.rsp.isNone

/-- `rsp_valid` (10_state R21, 70_reset_and_hazards R210): 1 when a response is outstanding and `rst` is low. -/
def rspValid (p : Pins) (s : State) : Bool := !p.rst && s.rsp.isSome

/-- Reset (70_reset_and_hazards R210): every piece of state takes its value of 10_state R45, an outstanding response is
dropped. What the host drives next is not the block's state. -/
def resetBlock (s : State) : State := { State.reset with inputs := s.inputs }

/-- One edge with the host's pins at it (10_state R21, 70_reset_and_hazards R210): reset wins; a command is accepted
when offered and ready; a response is taken when presented and the host is ready; else nothing changes. The response
is presented as soon as the command is accepted: latency is not modelled (log 5). -/
def edge (p : Pins) (s : State) : Outcome State Fault Refusal :=
  if p.rst then .next (resetBlock s)
  else if p.cmdValid && cmdReady p s then runWord p.cmdData s
  else if p.rspReady && rspValid p s then .next { s with rsp := none }
  else .next s

/-- The next edge: the oldest input is used up; a host that drives nothing leaves the block as it is (log 4). -/
def clockStep (s : State) : Outcome State Fault Refusal :=
  match s.inputs with
  | [] => .next s
  | p :: rest => edge p { s with inputs := rest }

/-- The host offers a command word. -/
def Pins.command (w : Word) : Pins := { cmdValid := true, cmdData := w }

/-- The host takes the response. -/
def Pins.take : Pins := { rspReady := true }

/-- Put one command word before the channel, so that the next step accepts and runs it: the host's next input is that
word, and the channel is free, because the host has taken any earlier response (log 4). -/
def offerWord (w : Word) (s : State) : State := { s with rsp := none, inputs := Pins.command w :: s.inputs }

/-- A sequence of commands at command level (10_state R21: "the sequence of pairs (command word, response word)"): each
response is taken before the next command. The answer is the last state, no response outstanding, and the responses
in order. -/
def session : List Word → State → Outcome (State × List Word) Fault Refusal
  | [], s => .next (s, [])
  | w :: ws, s =>
    match runWord w s with
    | .next s1 =>
      match session ws { s1 with rsp := none } with
      | .next (s2, rs) => .next (s2, s1.rsp.getD 0 :: rs)
      | .fault f => .fault f
      | .refused r => .refused r
    | .fault f => .fault f
    | .refused r => .refused r

end Sys2Proof.Machine
end

