-- ==== Sys2Proof/Machine/Step.lean ====
section
/-! DEFINITION. The step of the machine and the placing of one command before it. -/

namespace Sys2Proof.Machine

/-- One step: one edge of the command channel (10_state R21, 00_scope R9). -/
def step (s : State) : Host.Outcome State Fault Refusal := clockStep s

/-- The state in which the next step accepts the command whose bits are `w`, `nbits` of them given and the rest 0. The
block fetches nothing (10_state R41): the word stands on the command channel (log 4). -/
def State.withFetchWord (s : State) (nbits w : Nat) : State := offerWord (BitVec.ofNat 32 (w % 2 ^ nbits)) s

end Sys2Proof.Machine
end

