-- ==== Sys2Proof/Machine/Assembler.lean ====
section
/-! DEFINITION. The text of the assembly language (30_encoding R89, R90): a line of characters read as an `AsmLine`, and
a program as its words. The points R89 leaves open are in log 11. -/

namespace Sys2Proof.Machine

/-- The part of a line before its comment: "a `;` starts a comment that runs to the end of the line". -/
def dropComment (cs : List Char) : List Char := cs.takeWhile fun c => c != ';'

/-- Remove the spaces at both ends. -/
def trimSpaces (cs : List Char) : List Char :=
  ((cs.dropWhile fun c => c == ' ').reverse.dropWhile fun c => c == ' ').reverse

/-- Split at commas: the operands of a line, spaces and all. -/
def splitCommas : List Char → List (List Char)
  | [] => [[]]
  | c :: cs =>
    match splitCommas cs with
    | part :: parts => if c = ',' then [] :: part :: parts else (c :: part) :: parts
    | [] => [[c]]

/-- The value of a decimal digit. -/
def decimalDigit (c : Char) : Option Nat :=
  if 48 ≤ c.toNat ∧ c.toNat ≤ 57 then some (c.toNat - 48) else none

/-- The value of a hexadecimal digit, in either case (log 11). -/
def hexadecimalDigit (c : Char) : Option Nat :=
  if 97 ≤ c.toNat ∧ c.toNat ≤ 102 then some (c.toNat - 87)
  else if 65 ≤ c.toNat ∧ c.toNat ≤ 70 then some (c.toNat - 55)
  else decimalDigit c

/-- The value of a run of digits after `acc`. -/
def digitsValue (base : Nat) (digit : Char → Option Nat) : Nat → List Char → Option Nat
  | acc, [] => some acc
  | acc, c :: cs =>
    match digit c with
    | some d => digitsValue base digit (acc * base + d) cs
    | none => none

/-- "A number is decimal (`128`) or hexadecimal with a `0x` prefix (`0x80`)" (R89). -/
def parseNumber : List Char → Option Nat
  | [] => none
  | ['0', 'x'] => none
  | '0' :: 'x' :: cs => digitsValue 16 hexadecimalDigit 0 cs
  | cs => digitsValue 10 decimalDigit 0 cs

/-- The operand of SETBG: a number, `white` or `black` (R89). -/
def parseBackground (cs : List Char) : Option Nat :=
  if cs = ['w', 'h', 'i', 't', 'e'] then some 0
  else if cs = ['b', 'l', 'a', 'c', 'k'] then some 1
  else parseNumber cs

/-- The register names of 10_state R43 in the order of their numbers. -/
def registerNames : List (List Char) :=
  ["WIDTH".toList, "HEIGHT".toList, "BSIZE".toList, "THRESH".toList, "INVERT".toList, "BG".toList, "STATUS".toList,
    "NPIX".toList, "PLEN".toList, "PIDX".toList, "TLEN".toList, "TIDX".toList, "LUM".toList, "ACFG".toList]

/-- The operand of RDREG: a number or a register name (R89). -/
def parseRegister (cs : List Char) : Option Nat :=
  match registerNames.findIdx? fun name => name == cs with
  | some n => some n
  | none => parseNumber cs

/-- A line from its mnemonic and its operands (R89, R90). -/
def readLine (mnemonic : List Char) (ops : List (List Char)) : Option AsmLine :=
  match String.ofList mnemonic, ops with
  | "NOP", [] => some .nop
  | "SETW", [w] => (parseNumber w).map .setw
  | "SETH", [h] => (parseNumber h).map .seth
  | "SETBS", [bs] => (parseNumber bs).map .setbs
  | "SETTH", [t] => (parseNumber t).map .setth
  | "SETINV", [b] => (parseNumber b).map .setinv
  | "SETBG", [b] => (parseBackground b).map .setbg
  | "START", [] => some .start
  | "PIXEL", [r, g, b] => do return .pixel (← parseNumber r) (← parseNumber g) (← parseNumber b)
  | "FORMAT", [] => some .format
  | "TXT", [] => some .txt
  | "RDPB", [idx] => (parseNumber idx).map .rdpb
  | "RDREG", [n] => (parseRegister n).map .rdreg
  | "CLRERR", [mask] => (parseNumber mask).map .clrerr
  | "CLRERR", [] => some .clrerrAll
  | "RDSTAT", [] => some .rdstat
  | "PIXA", [r, g, b, a] => do
    return .pixa (← parseNumber r) (← parseNumber g) (← parseNumber b) (← parseNumber a)
  | "CONFIG", [w, h, bs, t, inv, bg] => do
    return .config (← parseNumber w) (← parseNumber h) (← parseNumber bs) (← parseNumber t) (← parseNumber inv)
      (← parseBackground bg)
  | _, _ => none

/-- The words of one line of text: none is an assembly error; a line of nothing but spaces and a comment has no word. -/
def assembleText (line : List Char) : Option (List Word) :=
  let body := trimSpaces (dropComment line)
  if body = [] then some []
  else
    let mnemonic := body.takeWhile fun c => c != ' '
    let rest := trimSpaces (body.drop mnemonic.length)
    let ops := if rest = [] then [] else (splitCommas rest).map trimSpaces
    (readLine mnemonic ops).bind AsmLine.assemble

/-- The words of a program, one line of text after another; one bad line is an assembly error of the whole. -/
def assembleProgram : List (List Char) → Option (List Word)
  | [] => some []
  | line :: lines =>
    match assembleText line, assembleProgram lines with
    | some ws, some rest => some (ws ++ rest)
    | _, _ => none

end Sys2Proof.Machine
end

