-- ==== Sys2Proof/Safety.lean ====
section
/-! DEFINITION. What every run keeps (10_state R44), and the terms in which statements about runs are made: the packed
bytes of a conversion, the pixels of a command sequence, and what the host sees of the handshake. -/

namespace Sys2Proof.Machine

open Host

/-- The invariants of 10_state R44, numbered as there, and two of the model's memory: its canonical form, and that it
lists only indexes that exist. -/
structure State.Inv (s : State) : Prop where
  /-- R44 item 1 -/
  blockSizes : legalBlockSize s.bsize = true ∧ legalBlockSize s.aBs = true
  /-- R44 item 2 -/
  phaseLegal : s.phase.code ≠ 3
  /-- R44 item 3 -/
  idleEmpty : s.phase = .idle → s.npix = 0 ∧ s.plen = 0 ∧ s.pidx = 0 ∧ s.tlen = 0 ∧ s.tidx = 0
  /-- R44 item 4 -/
  packedLength : s.plen.toNat = ceilDiv s.npix.toNat s.aBs.toNat ∧ s.plen.toNat ≤ Config.pbufBytes
  /-- R44 item 5 -/
  pixelIndex : s.pidx.toNat ≤ s.npix.toNat ∧ (s.phase = .encoding → s.pidx.toNat < s.npix.toNat) ∧
    (s.phase = .encoded → s.pidx = s.npix)
  /-- R44 item 6 -/
  textLength : s.tlen ≠ 0 → s.phase = .encoded ∧ s.tlen.toNat = textLen s.plen.toNat
  /-- R44 item 7 -/
  textIndex : s.tidx.toNat ≤ s.tlen.toNat
  /-- R44 item 8: every byte below PLEN has a value, whose 1 bits all belong to accepted pixels -/
  packedBits : ∀ k, k < s.plen.toNat → ∃ v, s.pbuf.read k = some v ∧
    ∀ j, v.getLsbD j = true → ∃ i, i < s.pidx.toNat ∧ byteIndex s.aBs.toNat i = k ∧ bitPos s.aBs.toNat i = j
  /-- the memory is in canonical form -/
  memoryWf : s.pbuf.wf
  /-- every listed index exists -/
  memoryInside : ∀ c ∈ s.pbuf, c.1 < Config.pbufBytes

/-- PBUF[0 .. PLEN-1] as a list (10_state R40); a byte without a value stands as 0, which `State.Inv` rules out. -/
def packedBytes (s : State) : List Byte := (List.range s.plen.toNat).map fun k => (s.pbuf.read k).getD 0

/-- The pixel a command word carries, if it is a PIXEL (30_encoding R82). -/
def pixelOf (w : Word) : Option Pixel :=
  match decode w with
  | some (.pixel r g b) => some ⟨r, g, b⟩
  | _ => none

/-- The pixels of a command sequence, in order. -/
def pixelsIn (ws : List Word) : List Pixel := ws.filterMap pixelOf

/-- What a rejection leaves, written out (60_exceptions R191): the flags of `flag` set, the response 0, all else kept. -/
def rejectedAs (flag : BitVec 5) (s : State) : State := { s with err := s.err ||| flag, rsp := some 0 }

/-- The error a command word raises in a state, if any: the table of 60_exceptions R190 in the order of R197. -/
def errorOf (w : Word) (s : State) : Option ErrorCode :=
  match decode w with
  | none => some .ill
  | some (.rdreg n) => if 14 ≤ n.toNat then some .ill else none
  | some (.setbs bs) => if bs = 2 ∨ bs = 4 ∨ bs = 8 then none else some .cfg
  | some (.pixel _ _ _) => if s.phase = .encoding then none else some .seq
  | some .format => if s.phase = .encoded then none else some .seq
  | some .start =>
    if ceilDiv (s.width.toNat * s.height.toNat) s.bsize.toNat > Config.pbufBytes then some .cap else none
  | some (.rdpb idx) =>
    if s.phase = .encoded then if s.plen.toNat ≤ idx.toNat then some .range else none else some .seq
  | some .nop | some (.setw _) | some (.seth _) | some (.setth _) | some (.setinv _) | some (.setbg _) | some .txt
  | some (.clrerr _) => none

/-- The commands that read or write the configuration registers: the SET commands, START, and RDREG 0 to 5
(10_state R29, R43). -/
def touchesConfiguration : Instr → Bool
  | .setw _ | .seth _ | .setbs _ | .setth _ | .setinv _ | .setbg _ | .start => true
  | .rdreg n => decide (n.toNat < 6)
  | .nop | .pixel _ _ _ | .format | .txt | .rdpb _ | .clrerr _ => false

/-- The commands that read or write BG: SETBG and RDREG 5 (10_state R28). -/
def touchesBackground : Instr → Bool
  | .setbg _ => true
  | .rdreg n => decide (n.toNat = 5)
  | .nop | .setw _ | .seth _ | .setbs _ | .setth _ | .setinv _ | .start | .pixel _ _ _ | .format | .txt | .rdpb _
  | .clrerr _ => false

/-- `s` with the six configuration registers of `c`. -/
def withConfigurationOf (c s : State) : State :=
  { s with width := c.width, height := c.height, bsize := c.bsize, thresh := c.thresh, invert := c.invert, bg := c.bg }

/-- The outcome with its next state changed. -/
def mapNext {α β : Type} (f : α → β) : Outcome α Fault Refusal → Outcome β Fault Refusal
  | .next s => .next (f s)
  | .fault r => .fault r
  | .refused r => .refused r

/-- The command words a free-running handshake accepts (10_state R21), with `rst` low; `busy` says that a response is
outstanding. -/
def acceptedWords : Bool → List Pins → List Word
  | _, [] => []
  | true, p :: ps => acceptedWords (!p.rspReady) ps
  | false, p :: ps => if p.cmdValid then p.cmdData :: acceptedWords true ps else acceptedWords false ps

/-- The responses the host takes in `n` steps: those presented at an edge where it is ready and `rst` is low. -/
def takenResponses : Nat → State → List Word
  | 0, _ => []
  | n + 1, s =>
    let taken := match s.rsp, s.inputs with
      | some r, p :: _ => if p.rspReady && !p.rst then [r] else []
      | _, _ => []
    match step s with
    | .next t => taken ++ takenResponses n t
    | _ => taken

end Sys2Proof.Machine
end

