-- ==== Sys2Proof/Certificates/Slice0/Obligations.lean ====
section
/-! DEFINITION. The statements for the provers, from the numbered rules of the spec. Where a rule gives a command's
pseudocode, the statement gives both the meaning of the decoded instruction and what every word of that opcode does. -/

open Sys2Proof Sys2Proof.Machine Host

/-! Encoding. -/

/-- 30_encoding R80 to R85: decoding the word of an instruction gives that instruction, for every operand. -/
def Obligations.DecodeEncodeRoundTrip : Prop := ∀ i : Instr, decode (encode i) = some i

/-- 30_encoding R85 and decision D3 ("fixed zeros make every word's meaning unique"): a word that decodes is the word of
its instruction. -/
def Obligations.EncodeDecodeRoundTrip : Prop := ∀ (w : Word) (i : Instr), decode w = some i → encode i = w

/-- 30_encoding R86: the ILLEGAL words are those with OP 0xE or 0xF or a nonzero reserved bit (the list holds the
payload width of each OP, R81 to R84), and each is rejected with ILL. -/
def Obligations.IllegalWordsAreRejected : Prop :=
  ∀ w : Word,
    (decode w = none ↔ 0xE ≤ w.toNat / 2 ^ 28 ∨
      2 ^ ([0, 16, 16, 4, 8, 1, 1, 0, 24, 0, 0, 24, 4, 5].getD (w.toNat / 2 ^ 28) 0) ≤ w.toNat % 2 ^ 28) ∧
    (decode w = none → ∀ s : State, runWord w s = .next { s with err := s.err ||| 1, rsp := some 0 })

/-- 30_encoding R84: "No two rows can match the same word". -/
def Obligations.OpcodeRowsNeverOverlap : Prop :=
  opcodeMap.Pairwise fun a b => ∀ w : Word, ¬(a.matches w = true ∧ b.matches w = true)

/-- 30_encoding R87: a word that differs from 0 in any bit is not a NOP. -/
def Obligations.OnlyZeroWordIsNop : Prop := ∀ w : Word, decode w = some .nop ↔ w = 0

/-- 30_encoding, encoding examples after R90, and the vectors D3, D5, D7, D12 of 95_test_vectors. -/
def Obligations.SampleWordsDecode : Prop :=
  decode 0x00000000 = some .nop ∧ decode 0x10000008 = some (.setw 8) ∧ decode 0x1000FFFF = some (.setw 65535) ∧
  decode 0x20000040 = some (.seth 64) ∧ decode 0x30000004 = some (.setbs 4) ∧ decode 0x30000003 = some (.setbs 3) ∧
  decode 0x4000007F = some (.setth 127) ∧ decode 0x50000001 = some (.setinv 1) ∧
  decode 0x60000001 = some (.setbg 1) ∧ decode 0x70000000 = some .start ∧
  decode 0x80FF0000 = some (.pixel 255 0 0) ∧ decode 0x8000FF00 = some (.pixel 0 255 0) ∧
  decode 0x90000000 = some .format ∧ decode 0xA0000000 = some .txt ∧ decode 0xB0000003 = some (.rdpb 3) ∧
  decode 0xC0000006 = some (.rdreg 6) ∧ decode 0xD000001F = some (.clrerr 0x1F)

/-- 30_encoding R89, R90: "An operand outside its range is an assembly error. The assembler emits no word for it". For
each mnemonic the ranges are written out: inside them the block decodes the line's words to the commands with exactly
those operands, and outside there is no word. That PIXA's alpha has a range, 0 to 255, is the model's choice (log 11). -/
def Obligations.AssembledLinesDecode : Prop :=
  let read (line : AsmLine) : Option (List (Option Instr)) := line.assemble.map fun ws => ws.map decode
  read .nop = some [some .nop] ∧ read .start = some [some .start] ∧ read .format = some [some .format] ∧
  read .txt = some [some .txt] ∧ read .clrerrAll = some [some (.clrerr 31)] ∧ read .rdstat = some [some (.rdreg 6)] ∧
  (∀ w, (w ≤ 65535 → ∃ x : BitVec 16, x.toNat = w ∧ read (.setw w) = some [some (.setw x)]) ∧
    (65535 < w → (AsmLine.setw w).assemble = none)) ∧
  (∀ h, (h ≤ 65535 → ∃ x : BitVec 16, x.toNat = h ∧ read (.seth h) = some [some (.seth x)]) ∧
    (65535 < h → (AsmLine.seth h).assemble = none)) ∧
  (∀ bs, (bs ≤ 15 → ∃ x : BitVec 4, x.toNat = bs ∧ read (.setbs bs) = some [some (.setbs x)]) ∧
    (15 < bs → (AsmLine.setbs bs).assemble = none)) ∧
  (∀ t, (t ≤ 255 → ∃ x : BitVec 8, x.toNat = t ∧ read (.setth t) = some [some (.setth x)]) ∧
    (255 < t → (AsmLine.setth t).assemble = none)) ∧
  (∀ b, (b ≤ 1 → ∃ x : BitVec 1, x.toNat = b ∧ read (.setinv b) = some [some (.setinv x)]) ∧
    (1 < b → (AsmLine.setinv b).assemble = none)) ∧
  (∀ b, (b ≤ 1 → ∃ x : BitVec 1, x.toNat = b ∧ read (.setbg b) = some [some (.setbg x)]) ∧
    (1 < b → (AsmLine.setbg b).assemble = none)) ∧
  (∀ r g b, (r ≤ 255 → g ≤ 255 → b ≤ 255 → ∃ x y z : BitVec 8, x.toNat = r ∧ y.toNat = g ∧ z.toNat = b ∧
      read (.pixel r g b) = some [some (.pixel x y z)]) ∧
    (255 < r ∨ 255 < g ∨ 255 < b → (AsmLine.pixel r g b).assemble = none)) ∧
  (∀ idx, (idx ≤ 16777215 → ∃ x : BitVec 24, x.toNat = idx ∧ read (.rdpb idx) = some [some (.rdpb x)]) ∧
    (16777215 < idx → (AsmLine.rdpb idx).assemble = none)) ∧
  (∀ n, (n ≤ 15 → ∃ x : BitVec 4, x.toNat = n ∧ read (.rdreg n) = some [some (.rdreg x)]) ∧
    (15 < n → (AsmLine.rdreg n).assemble = none)) ∧
  (∀ mask, (mask ≤ 31 → ∃ x : BitVec 5, x.toNat = mask ∧ read (.clrerr mask) = some [some (.clrerr x)]) ∧
    (31 < mask → (AsmLine.clrerr mask).assemble = none)) ∧
  (∀ r g b a, (r ≤ 255 → g ≤ 255 → b ≤ 255 → a ≤ 255 → ∃ x y z : BitVec 8,
      x.toNat = r ∧ y.toNat = g ∧ z.toNat = b ∧ read (.pixa r g b a) = some [some (.pixel x y z)]) ∧
    (255 < r ∨ 255 < g ∨ 255 < b ∨ 255 < a → (AsmLine.pixa r g b a).assemble = none)) ∧
  ∀ w h bs t inv bg,
    (w ≤ 65535 → h ≤ 65535 → bs ≤ 15 → t ≤ 255 → inv ≤ 1 → bg ≤ 1 →
      ∃ (x y : BitVec 16) (k : BitVec 4) (u : BitVec 8) (p q : BitVec 1),
        x.toNat = w ∧ y.toNat = h ∧ k.toNat = bs ∧ u.toNat = t ∧ p.toNat = inv ∧ q.toNat = bg ∧
        read (.config w h bs t inv bg) =
          some [some (.setw x), some (.seth y), some (.setbs k), some (.setth u), some (.setinv p), some (.setbg q)]) ∧
    (65535 < w ∨ 65535 < h ∨ 15 < bs ∨ 255 < t ∨ 1 < inv ∨ 1 < bg →
      (AsmLine.config w h bs t inv bg).assemble = none)

/-- The table of 30_encoding R89, its "encodes to" column. -/
def Obligations.AssemblyTableWords : Prop :=
  AsmLine.nop.assemble = some [0x00000000] ∧
  (∀ w, w ≤ 65535 → (AsmLine.setw w).assemble = some [0x10000000 ||| BitVec.ofNat 32 w]) ∧
  (∀ h, h ≤ 65535 → (AsmLine.seth h).assemble = some [0x20000000 ||| BitVec.ofNat 32 h]) ∧
  (∀ bs, bs ≤ 15 → (AsmLine.setbs bs).assemble = some [0x30000000 ||| BitVec.ofNat 32 bs]) ∧
  (∀ t, t ≤ 255 → (AsmLine.setth t).assemble = some [0x40000000 ||| BitVec.ofNat 32 t]) ∧
  (∀ b, b ≤ 1 → (AsmLine.setinv b).assemble = some [0x50000000 ||| BitVec.ofNat 32 b]) ∧
  (∀ b, b ≤ 1 → (AsmLine.setbg b).assemble = some [0x60000000 ||| BitVec.ofNat 32 b]) ∧
  AsmLine.start.assemble = some [0x70000000] ∧
  (∀ r g b, r ≤ 255 → g ≤ 255 → b ≤ 255 → (AsmLine.pixel r g b).assemble =
    some [0x80000000 ||| BitVec.ofNat 32 r <<< 16 ||| BitVec.ofNat 32 g <<< 8 ||| BitVec.ofNat 32 b]) ∧
  AsmLine.format.assemble = some [0x90000000] ∧
  AsmLine.txt.assemble = some [0xA0000000] ∧
  (∀ idx, idx < 2 ^ 24 → (AsmLine.rdpb idx).assemble = some [0xB0000000 ||| BitVec.ofNat 32 idx]) ∧
  (∀ n, n ≤ 15 → (AsmLine.rdreg n).assemble = some [0xC0000000 ||| BitVec.ofNat 32 n]) ∧
  (∀ mask, mask ≤ 31 → (AsmLine.clrerr mask).assemble = some [0xD0000000 ||| BitVec.ofNat 32 mask])

/-- 30_encoding R90: each pseudo-instruction gives exactly the words of its expansion. -/
def Obligations.PseudoInstructionsExpand : Prop :=
  (∀ r g b a, a ≤ 255 → (AsmLine.pixa r g b a).assemble = (AsmLine.pixel r g b).assemble) ∧
  AsmLine.clrerrAll.assemble = (AsmLine.clrerr 0x1F).assemble ∧
  AsmLine.rdstat.assemble = (AsmLine.rdreg 6).assemble ∧
  ∀ w h bs t inv bg, (AsmLine.config w h bs t inv bg).assemble =
    (do
      let a ← (AsmLine.setw w).assemble
      let b ← (AsmLine.seth h).assemble
      let c ← (AsmLine.setbs bs).assemble
      let d ← (AsmLine.setth t).assemble
      let e ← (AsmLine.setinv inv).assemble
      let f ← (AsmLine.setbg bg).assemble
      return a ++ b ++ c ++ d ++ e ++ f)

/-! What each command does. -/

/-- 40_config R100: NOP completes in every state and changes nothing but the response; any other word of OP 0 is ILL. -/
def Obligations.NopChangesNothing : Prop :=
  ∀ s : State, exec .nop s = .next { s with rsp := some 0 } ∧
    ∀ w : Word, w.extractLsb' 28 4 = 0 →
      runWord w s = if w = 0 then .next { s with rsp := some 0 } else .next (rejectedAs 1 s)

/-- 40_config R101, R102, R104, R105, R106: SETW, SETH, SETTH, SETINV and SETBG complete in every state, write their
register with their field, answer 0, and change nothing else; a nonzero reserved bit is ILL. -/
def Obligations.ConfigurationWritesOneRegister : Prop :=
  ∀ s : State,
    (∀ x, exec (.setw x) s = .next { s with width := x, rsp := some 0 }) ∧
    (∀ x, exec (.seth x) s = .next { s with height := x, rsp := some 0 }) ∧
    (∀ x, exec (.setth x) s = .next { s with thresh := x, rsp := some 0 }) ∧
    (∀ x, exec (.setinv x) s = .next { s with invert := x, rsp := some 0 }) ∧
    (∀ x, exec (.setbg x) s = .next { s with bg := x, rsp := some 0 }) ∧
    ∀ w : Word,
      (w.extractLsb' 28 4 = 1 → runWord w s = if w.extractLsb' 16 12 ≠ 0 then .next (rejectedAs 1 s)
        else .next { s with width := w.extractLsb' 0 16, rsp := some 0 }) ∧
      (w.extractLsb' 28 4 = 2 → runWord w s = if w.extractLsb' 16 12 ≠ 0 then .next (rejectedAs 1 s)
        else .next { s with height := w.extractLsb' 0 16, rsp := some 0 }) ∧
      (w.extractLsb' 28 4 = 4 → runWord w s = if w.extractLsb' 8 20 ≠ 0 then .next (rejectedAs 1 s)
        else .next { s with thresh := w.extractLsb' 0 8, rsp := some 0 }) ∧
      (w.extractLsb' 28 4 = 5 → runWord w s = if w.extractLsb' 1 27 ≠ 0 then .next (rejectedAs 1 s)
        else .next { s with invert := w.extractLsb' 0 1, rsp := some 0 }) ∧
      (w.extractLsb' 28 4 = 6 → runWord w s = if w.extractLsb' 1 27 ≠ 0 then .next (rejectedAs 1 s)
        else .next { s with bg := w.extractLsb' 0 1, rsp := some 0 })

/-- 40_config R103: SETBS completes with 2, 4 and 8 and writes only BSIZE; any other value is CFG and BSIZE keeps its
value; a nonzero reserved bit is ILL. -/
def Obligations.SetBlockSizeChecksItsValue : Prop :=
  ∀ s : State,
    (∀ bs : BitVec 4, exec (.setbs bs) s = if bs ≠ 2 ∧ bs ≠ 4 ∧ bs ≠ 8 then .next (rejectedAs 2 s)
      else .next { s with bsize := bs, rsp := some 0 }) ∧
    ∀ w : Word, w.extractLsb' 28 4 = 3 → runWord w s = if w.extractLsb' 4 24 ≠ 0 then .next (rejectedAs 1 s)
      else exec (.setbs (w.extractLsb' 0 4)) s

/-- 41_encoder R130: START, accepted or rejected with CAP, with every register it writes and every byte of PBUF; any
other word of OP 7 is ILL. -/
def Obligations.StartBeginsConversion : Prop :=
  ∀ s : State, legalBlockSize s.bsize = true →
    let n := s.width.toNat * s.height.toNat
    let len := ⌈(n : ℚ) / (s.bsize.toNat : ℚ)⌉₊
    (Config.pbufBytes < len → exec .start s = .next (rejectedAs 8 s)) ∧
    (len ≤ Config.pbufBytes → ∃ (np pl : BitVec 32) (m : Memory), np.toNat = n ∧ pl.toNat = len ∧
      (∀ k, m.read k = if k < len then some 0 else s.pbuf.read k) ∧
      exec .start s = .next { s with
        aBs := s.bsize, aTh := s.thresh, aInv := s.invert, npix := np, plen := pl, pidx := 0, pbuf := m, tlen := 0,
        tidx := 0, phase := if n = 0 then .encoded else .encoding, rsp := some 0 }) ∧
    ∀ w : Word, w.extractLsb' 28 4 = 7 →
      runWord w s = if w ≠ 0x70000000 then .next (rejectedAs 1 s) else exec .start s

/-- 41_encoder R131: PIXEL, accepted or rejected with SEQ: the one bit it writes, LUM, PIDX, PHASE and the preview
response, every other byte and register kept; a nonzero reserved bit is ILL. -/
def Obligations.PixelPacksItsBit : Prop :=
  ∀ s : State, s.Inv →
    (∀ r g b : BitVec 8, s.phase ≠ .encoding → exec (.pixel r g b) s = .next (rejectedAs 4 s)) ∧
    (∀ r g b : BitVec 8, s.phase = .encoding →
      let wl := 2126 * r.toNat + 7152 * g.toNat + 722 * b.toNat
      let v : BitVec 1 := (if wl > 10000 * s.aTh.toNat then 1 else 0) ^^^ s.aInv
      let i := s.pidx.toNat
      let k := i / s.aBs.toNat
      let bit := s.aBs.toNat - 1 - i % s.aBs.toNat
      k < s.plen.toNat ∧ ∃ (old : Byte) (t : State), s.pbuf.read k = some old ∧
        exec (.pixel r g b) s = .next t ∧
        t.pbuf.read k = some ((old &&& ~~~(1#8 <<< bit)) ||| (v.setWidth 8 <<< bit)) ∧
        (∀ a, a ≠ k → t.pbuf.read a = s.pbuf.read a) ∧
        t.lum.toNat = wl ∧ t.pidx.toNat = i + 1 ∧
        t = { s with
          pbuf := t.pbuf, lum := t.lum, pidx := t.pidx,
          phase := if i + 1 = s.npix.toNat then .encoded else .encoding,
          rsp := some (if v = 1 then 0xFFFFFFFF else 0x000000FF) }) ∧
    ∀ w : Word, w.extractLsb' 28 4 = 8 → runWord w s = if w.extractLsb' 24 4 ≠ 0 then .next (rejectedAs 1 s)
      else exec (.pixel (w.extractLsb' 16 8) (w.extractLsb' 8 8) (w.extractLsb' 0 8)) s

/-- 42_formatter R155: FORMAT in ENCODED sets TLEN to TextLen(PLEN) and TIDX to 0, also mid-text; SEQ elsewhere; any
other word of OP 9 is ILL. -/
def Obligations.FormatStartsText : Prop :=
  ∀ s : State, s.Inv →
    (s.phase = .encoded → ∃ tl : BitVec 32,
      tl.toNat = (if s.plen.toNat = 0 then 0 else 5 * s.plen.toNat - 1 + (s.plen.toNat - 1) / 8) ∧
      exec .format s = .next { s with tlen := tl, tidx := 0, rsp := some 0 }) ∧
    (s.phase ≠ .encoded → exec .format s = .next (rejectedAs 4 s)) ∧
    ∀ w : Word, w.extractLsb' 28 4 = 9 →
      runWord w s = if w ≠ 0x90000000 then .next (rejectedAs 1 s) else exec .format s

/-- 42_formatter R156: TXT returns CharAt(PBUF[0 .. PLEN-1], TIDX) with bit 8 set and advances TIDX, or returns 0 and
changes nothing at the end of the text; any other word of OP 0xA is ILL. -/
def Obligations.TxtReturnsNextCharacter : Prop :=
  ∀ s : State, s.Inv →
    (s.tidx.toNat < s.tlen.toNat → ∃ ti : BitVec 32, ti.toNat = s.tidx.toNat + 1 ∧
      exec .txt s = .next { s with
        tidx := ti, rsp := some (0x100 ||| (charAt (packedBytes s) s.tidx.toNat).setWidth 32) }) ∧
    (s.tlen.toNat ≤ s.tidx.toNat → exec .txt s = .next { s with rsp := some 0 }) ∧
    ∀ w : Word, w.extractLsb' 28 4 = 10 →
      runWord w s = if w ≠ 0xA0000000 then .next (rejectedAs 1 s) else exec .txt s

/-- 43_readback R170: RDPB returns the byte below PLEN in ENCODED, with only its A_BS low bits used, and changes nothing
else; SEQ before RANGE; a nonzero reserved bit is ILL. -/
def Obligations.ReadPackedByte : Prop :=
  ∀ s : State, s.Inv →
    (∀ idx : BitVec 24, s.phase ≠ .encoded → exec (.rdpb idx) s = .next (rejectedAs 4 s)) ∧
    (∀ idx : BitVec 24, s.phase = .encoded → s.plen.toNat ≤ idx.toNat →
      exec (.rdpb idx) s = .next (rejectedAs 16 s)) ∧
    (∀ idx : BitVec 24, s.phase = .encoded → idx.toNat < s.plen.toNat → ∃ v : Byte,
      s.pbuf.read idx.toNat = some v ∧ v.toNat < 2 ^ s.aBs.toNat ∧
      exec (.rdpb idx) s = .next { s with rsp := some (v.setWidth 32) }) ∧
    ∀ w : Word, w.extractLsb' 28 4 = 11 → runWord w s = if w.extractLsb' 24 4 ≠ 0 then .next (rejectedAs 1 s)
      else exec (.rdpb (w.extractLsb' 0 24)) s

/-- 43_readback R171 with the table of 10_state R43: RDREG returns each register zero-extended and changes nothing
else; 14 and 15 are ILL; a nonzero reserved bit is ILL. -/
def Obligations.ReadRegisterTable : Prop :=
  ∀ s : State,
    let values : List Word :=
      [s.width.setWidth 32, s.height.setWidth 32, s.bsize.setWidth 32, s.thresh.setWidth 32, s.invert.setWidth 32,
        s.bg.setWidth 32, statusView s, s.npix, s.plen, s.pidx, s.tlen, s.tidx, s.lum.setWidth 32, acfgView s]
    (∀ (n : BitVec 4) (v : Word), values[n.toNat]? = some v →
      exec (.rdreg n) s = .next { s with rsp := some v }) ∧
    (∀ n : BitVec 4, n = 14 ∨ n = 15 → exec (.rdreg n) s = .next (rejectedAs 1 s)) ∧
    ∀ w : Word, w.extractLsb' 28 4 = 12 → runWord w s = if w.extractLsb' 4 24 ≠ 0 then .next (rejectedAs 1 s)
      else exec (.rdreg (w.extractLsb' 0 4)) s

/-- 43_readback R172: CLRERR clears the flags its mask selects, keeps the others, and changes nothing else; a nonzero
reserved bit is ILL and clears nothing. -/
def Obligations.ClearErrorsByMask : Prop :=
  ∀ s : State,
    (∀ mask : BitVec 5, ∃ e : BitVec 5,
      (∀ j, j < 5 → e.getLsbD j = (s.err.getLsbD j && !mask.getLsbD j)) ∧
      exec (.clrerr mask) s = .next { s with err := e, rsp := some 0 }) ∧
    ∀ w : Word, w.extractLsb' 28 4 = 13 → runWord w s = if w.extractLsb' 5 23 ≠ 0 then .next (rejectedAs 1 s)
      else exec (.clrerr (w.extractLsb' 0 5)) s

/-- 10_state R38 with the codes of R30: RDREG 6 reads STATUS, and the bits of STATUS are PHASE (0 IDLE, 1 ENCODING,
2 ENCODED), TXTPEND, 0, ERR and zeros. That PHASE is one of three values, so that the code 3 has no case, is the model's
reading (DEDUCED, log 3). -/
def Obligations.StatusBitLayout : Prop :=
  (∀ s : State,
    exec (.rdreg 6) s = .next { s with rsp := some (statusView s) } ∧
    (s.phase = .idle → (statusView s).extractLsb' 0 2 = 0) ∧
    (s.phase = .encoding → (statusView s).extractLsb' 0 2 = 1) ∧
    (s.phase = .encoded → (statusView s).extractLsb' 0 2 = 2) ∧
    ((statusView s).getLsbD 2 = true ↔ s.tidx.toNat < s.tlen.toNat) ∧
    (statusView s).getLsbD 3 = false ∧
    (statusView s).extractLsb' 4 5 = s.err ∧
    (statusView s).extractLsb' 9 23 = 0) ∧
  statusView State.reset = 0

/-- 10_state R39: RDREG 13 reads ACFG, and the bits of ACFG are A_BS, A_TH, A_INV and zeros. -/
def Obligations.ActiveConfigurationLayout : Prop :=
  (∀ s : State,
    exec (.rdreg 13) s = .next { s with rsp := some (acfgView s) } ∧
    (acfgView s).extractLsb' 0 4 = s.aBs ∧
    (acfgView s).extractLsb' 4 8 = s.aTh ∧
    (acfgView s).extractLsb' 12 1 = s.aInv ∧
    (acfgView s).extractLsb' 13 19 = 0) ∧
  acfgView State.reset = 0x7F8

/-! Errors. -/

/-- 60_exceptions R190, R191, R192, R195, R196: in each case of the table (`errorOf`) the command has exactly the effect
of a rejection with that code, and the block goes on to the next command; in no other case is a flag raised. -/
def Obligations.ErrorsAreExactAndAtomic : Prop :=
  ∀ (w : Word) (s : State),
    (∀ code : ErrorCode, errorOf w s = some code →
      runWord w s = .next { s with err := s.err ||| 1#5 <<< code.number, rsp := some 0 }) ∧
    (s.Inv → errorOf w s = none → ∃ t, runWord w s = .next t ∧
      ∀ e, t.err.getLsbD e = true → s.err.getLsbD e = true) ∧
    (s.Inv → ∀ (t : State) (w' : Word), runWord w s = .next t → ∃ t', runWord w' { t with rsp := none } = .next t')

/-- 60_exceptions R197: a command raises at most one error, and an RDPB before the conversion is complete reports SEQ
even at or above PLEN. -/
def Obligations.AtMostOneErrorPerCommand : Prop :=
  (∀ (w : Word) (s t : State), s.err = 0 → runWord w s = .next t →
    t.err = 0 ∨ t.err = 1 ∨ t.err = 2 ∨ t.err = 4 ∨ t.err = 8 ∨ t.err = 16) ∧
  ∀ (idx : BitVec 24) (s : State), s.err = 0 → s.phase ≠ .encoded → s.plen.toNat ≤ idx.toNat →
    ∃ t, exec (.rdpb idx) s = .next t ∧ t.err = 4

/-- 10_state R23 to R37, R40, R43: each piece of state changes only at the commands the rules name, and only CLRERR
clears an error flag. The frame of every command word, accepted or not. The last clause is the model's choice (DESIGN
CHOICE, log 4): no command touches the model's own field `inputs`, in which the host's coming pin values stand. -/
def Obligations.StateChangesOnlyByNamedCommands : Prop :=
  ∀ (w : Word) (s t : State), runWord w s = .next t →
    (t.width ≠ s.width → ∃ x, decode w = some (.setw x)) ∧
    (t.height ≠ s.height → ∃ x, decode w = some (.seth x)) ∧
    (t.bsize ≠ s.bsize → ∃ x, decode w = some (.setbs x)) ∧
    (t.thresh ≠ s.thresh → ∃ x, decode w = some (.setth x)) ∧
    (t.invert ≠ s.invert → ∃ x, decode w = some (.setinv x)) ∧
    (t.bg ≠ s.bg → ∃ x, decode w = some (.setbg x)) ∧
    (t.aBs ≠ s.aBs ∨ t.aTh ≠ s.aTh ∨ t.aInv ≠ s.aInv ∨ t.npix ≠ s.npix ∨ t.plen ≠ s.plen →
      decode w = some .start) ∧
    (t.phase ≠ s.phase ∨ t.pidx ≠ s.pidx ∨ (∃ k, t.pbuf.read k ≠ s.pbuf.read k) →
      decode w = some .start ∨ ∃ r g b, decode w = some (.pixel r g b)) ∧
    (t.lum ≠ s.lum → ∃ r g b, decode w = some (.pixel r g b)) ∧
    (t.tlen ≠ s.tlen → decode w = some .start ∨ decode w = some .format) ∧
    (t.tidx ≠ s.tidx → decode w = some .start ∨ decode w = some .format ∨ decode w = some .txt) ∧
    ((∃ e, s.err.getLsbD e = true ∧ t.err.getLsbD e = false) → ∃ mask, decode w = some (.clrerr mask)) ∧
    t.inputs = s.inputs

/-! What a command sequence cannot show. -/

/-- 10_state R29, 40_config R107, 70_reset_and_hazards R215: between two STARTs the configuration registers have no
effect: two states that differ in nothing else give the same responses and the same state but for them. -/
def Obligations.ConversionIgnoresConfigurationRegisters : Prop :=
  ∀ (c : State) (ws : List Word) (s : State),
    (∀ w ∈ ws, ∀ i, decode w = some i → touchesConfiguration i = false) →
    session ws (withConfigurationOf c s) = mapNext (fun x => (withConfigurationOf c x.1, x.2)) (session ws s)

/-- 10_state R28: BG "has no effect on any other state or on any response other than RDREG 5". -/
def Obligations.BackgroundIsNeverObserved : Prop :=
  ∀ (b : BitVec 1) (ws : List Word) (s : State),
    (∀ w ∈ ws, ∀ i, decode w = some i → touchesBackground i = false) →
    session ws { s with bg := b } = mapNext (fun x => ({ x.1 with bg := b }, x.2)) (session ws s)

/-! Invariants. -/

/-- 10_state R44 "After reset"; the two conditions on the model's memory (log 2) stand beside its eight. -/
def Obligations.InvariantsHoldAtReset : Prop := State.reset.Inv

/-- 10_state R44 "after every step", for every state that meets the invariants; the two conditions on the model's memory
(log 2) stand beside its eight. -/
def Obligations.StepKeepsInvariants : Prop := ∀ s t : State, s.Inv → step s = .next t → t.Inv

/-- 93_implementation_defined I1: the fault on a byte without a value "is unreachable"; no step of a state that meets
the invariants stops. -/
def Obligations.StepNeverStops : Prop := ∀ s : State, s.Inv → ∃ t, step s = .next t

/-- The memory's canonical form (the model's choice, log 2) is kept by every step, whatever the other registers hold. -/
def Obligations.StepKeepsCanonicalMemory : Prop :=
  ∀ s t : State, s.pbuf.wf → step s = .next t → t.pbuf.wf

/-! Reset and the command channel. -/

/-- 70_reset_and_hazards R210 with the table of 10_state R45: an edge with `rst` = 1, whatever else stands on the pins,
puts every register at its reset value and drops an outstanding response; while `rst` = 1 neither ready nor valid is
given, and with `rst` back at 0 the block is ready. PBUF, which the table leaves unspecified, is left out. -/
def Obligations.ResetEdgeRestoresTable : Prop :=
  ∀ (s : State) (p : Pins) (rest : List Pins), s.inputs = p :: rest → p.rst = true →
    cmdReady p s = false ∧ rspValid p s = false ∧
    ∃ t, step s = .next t ∧
      t.width = 0 ∧ t.height = 0 ∧ t.bsize = 8 ∧ t.thresh = 127 ∧ t.invert = 0 ∧ t.bg = 0 ∧
      t.aBs = 8 ∧ t.aTh = 127 ∧ t.aInv = 0 ∧ t.phase = .idle ∧ t.npix = 0 ∧ t.plen = 0 ∧ t.pidx = 0 ∧
      t.tlen = 0 ∧ t.tidx = 0 ∧ t.lum = 0 ∧ t.err = 0 ∧ statusView t = 0 ∧ acfgView t = 0x7F8 ∧
      ∀ q : Pins, q.rst = false → cmdReady q t = true ∧ rspValid q t = false

/-- A step runs the decoded instruction: with the channel free and a command offered, the step is `exec` of the
instruction its word decodes to (or the ILL rejection), on the state whose oldest input is used up. -/
def Obligations.StepRunsDecodedInstruction : Prop :=
  (∀ (s : State) (p : Pins) (rest : List Pins), s.inputs = p :: rest → p.rst = false → p.cmdValid = true →
    s.rsp = none →
    (∀ i, decode p.cmdData = some i → step s = exec i { s with inputs := rest }) ∧
    (decode p.cmdData = none → step s = .next (rejectedAs 1 { s with inputs := rest }))) ∧
  ∀ (s : State) (w : Word) (i : Instr), decode w = some i →
    step (s.withFetchWord 32 w.toNat) = exec i { s with rsp := none }

/-- 10_state R21: an outstanding response is held until the host is ready, and no command is accepted before it has been
taken, whatever stands on `cmd_valid` and `cmd_data`. -/
def Obligations.OutstandingResponseIsHeld : Prop :=
  ∀ (s : State) (r : Word) (p : Pins) (rest : List Pins), s.rsp = some r → s.inputs = p :: rest → p.rst = false →
    cmdReady p s = false ∧ rspValid p s = true ∧
    step s = .next { s with inputs := rest, rsp := if p.rspReady then none else some r }

/-- 10_state R21, 20_memory R71: whatever the host drives on the pins (no reset), the run is the sequence of accepted
commands in their order, each with exactly one response, and the host takes those responses in that order, all but
the one still outstanding. Which commands are accepted (`acceptedWords`) rests on the model's reading of `cmd_ready`:
an idle block accepts an offered command at once, and nothing is accepted at the edge at which a response is taken
(DEDUCED, log 7). The pin values stand in the model's own input list (log 4), and a response is presented as soon as
its command is accepted (log 5). -/
def Obligations.HandshakeRunsCommandsInOrder : Prop :=
  ∀ s : State, s.Inv → s.rsp = none → (∀ p ∈ s.inputs, p.rst = false) →
    ∃ (t : State) (rs : List Word) (pending : Option Word),
      session (acceptedWords false s.inputs) { s with inputs := [] } = .next (t, rs) ∧
      Sys2Proof.core.run s.inputs.length s = .next { t with rsp := pending } ∧
      rs = takenResponses s.inputs.length s ++ pending.toList

/-- 30_encoding R88, 10_state R21: every command word completes and presents a response; and a command sequence
completes with one response for each command, the response to a command being the one it presents in the state that
the commands before it left. -/
def Obligations.SessionsAnswerEveryCommand : Prop :=
  (∀ (w : Word) (s : State), s.Inv → ∃ (t : State) (r : Word), runWord w s = .next t ∧ t.rsp = some r ∧ t.Inv) ∧
  ∀ (ws : List Word) (s : State), s.Inv →
    ∃ (t : State) (rs : List Word), session ws s = .next (t, rs) ∧ rs.length = ws.length ∧ t.Inv ∧
      ∀ (before : List Word) (w : Word) (after : List Word), ws = before ++ w :: after →
        ∃ (u v : State) (r : Word) (rs1 rs2 : List Word), session before s = .next (u, rs1) ∧
          rs1.length = before.length ∧ runWord w u = .next v ∧ v.rsp = some r ∧ rs = rs1 ++ r :: rs2

/-! The encoder. -/

/-- 41_encoder R120: W / 10000 is the luminance exactly, W is in range and fits LUM, and a gray pixel's luminance is its
channel value. -/
def Obligations.ScaledLuminanceIsExact : Prop :=
  (∀ r g b : Byte, (scaledLuminance r g b : ℚ) / 10000 = 0.2126 * r.toNat + 0.7152 * g.toNat + 0.0722 * b.toNat ∧
    scaledLuminance r g b ≤ 2550000 ∧ scaledLuminance r g b < 2 ^ 22) ∧
  ∀ x : Byte, luminance x x x = x.toNat

/-- 41_encoder R121, R122: the decided value is 1 exactly when the luminance is strictly above the threshold, and the
invert flag complements it. -/
def Obligations.DecisionComparesExactLuminance : Prop :=
  ∀ (r g b : Byte) (t : BitVec 8),
    (thresholdBit (scaledLuminance r g b) t = 1 ↔ luminance r g b > (t.toNat : ℚ)) ∧
    (decidedBit r g b t 0 = 1 ↔ luminance r g b > (t.toNat : ℚ)) ∧
    (decidedBit r g b t 1 = 1 ↔ ¬ luminance r g b > (t.toNat : ℚ))

/-- 41_encoder R123: the block's div and mod forms are the source's formulas on the 1-based pixel number. -/
def Obligations.PlacementMatchesSourceFormulas : Prop :=
  ∀ bs i : Nat, bs = 2 ∨ bs = 4 ∨ bs = 8 →
    let pixelNumber := i + 1
    let posInByte := (pixelNumber - 1) % bs
    byteIndex bs i + 1 = ⌈(pixelNumber : ℚ) / (bs : ℚ)⌉₊ ∧ bitPos bs i = bs - 1 - posInByte ∧ bitPos bs i < bs ∧
    byteIndex bs i = i >>> Nat.log2 bs ∧ posInByte = i &&& (bs - 1)

/-- 41_encoder R124: the map from pixel numbers to (byteIndex, bitPos) is one-to-one, and it reaches every used bit of
every byte. -/
def Obligations.PlacementIsOneToOne : Prop :=
  ∀ bs : Nat, bs = 2 ∨ bs = 4 ∨ bs = 8 →
    (∀ i j, byteIndex bs i = byteIndex bs j → bitPos bs i = bitPos bs j → i = j) ∧
    ∀ k j, j < bs → ∃ i, byteIndex bs i = k ∧ bitPos bs i = j

/-- 41_encoder R126: the packed buffer of n pixels has ceil(n / bs) bytes, and none for n = 0. -/
def Obligations.PackedBufferLength : Prop :=
  ∀ (bs : Nat) (t : BitVec 8) (inv : BitVec 1) (ps : List Pixel), bs = 2 ∨ bs = 4 ∨ bs = 8 →
    (encodePixels bs t inv ps).length = ⌈(ps.length : ℚ) / (bs : ℚ)⌉₊ ∧ encodePixels bs t inv [] = []

/-- 41_encoder R129 closed form, with R125: bit j of byte k is the decided value of pixel k*bs + (bs-1-j) where there is
one, and 0 in both kinds of unaddressed bit. -/
def Obligations.EncodeClosedForm : Prop :=
  ∀ (bs : Nat) (t : BitVec 8) (inv : BitVec 1) (ps : List Pixel) (k j : Nat), bs = 2 ∨ bs = 4 ∨ bs = 8 →
    k < (encodePixels bs t inv ps).length → j < 8 →
    ∃ v, (encodePixels bs t inv ps)[k]? = some v ∧
      v.getLsbD j = (decide (j < bs) &&
        match ps[k * bs + (bs - 1 - j)]? with
        | some p => (decidedBit p.r p.g p.b t inv).getLsbD 0
        | none => false)

/-- 41_encoder R133: two conversions that differ only in the invert flag differ in byte k by exactly M_k, and both are 0
outside M_k; a whole-byte NOT relates them only for a full block at block size 8. -/
def Obligations.InvertSymmetry : Prop :=
  ∀ (bs : Nat) (t : BitVec 8) (ps : List Pixel) (k : Nat), bs = 2 ∨ bs = 4 ∨ bs = 8 →
    k < (encodePixels bs t 0 ps).length →
    let n := ps.length
    let m := n % bs
    let mask : Byte := if (k + 1) * bs ≤ n then BitVec.ofNat 8 (2 ^ bs - 1)
      else BitVec.ofNat 8 (2 ^ m - 1) <<< (bs - m)
    ∃ x y, (encodePixels bs t 0 ps)[k]? = some x ∧ (encodePixels bs t 1 ps)[k]? = some y ∧
      y = x ^^^ mask ∧ x &&& ~~~mask = 0 ∧ y &&& ~~~mask = 0 ∧ (y = ~~~x ↔ bs = 8 ∧ (k + 1) * bs ≤ n)

/-- 41_encoder R132: after an accepted START and at least NPIX PIXEL commands, with any commands but START between and
after them, PHASE is ENCODED and PBUF[0 .. PLEN-1] is Encode of the first NPIX pixels. -/
def Obligations.ConversionComputesEncode : Prop :=
  ∀ (s : State) (ws : List Word), s.Inv →
    ceilDiv (s.width.toNat * s.height.toNat) s.bsize.toNat ≤ Config.pbufBytes →
    (∀ w ∈ ws, decode w ≠ some .start) →
    s.width.toNat * s.height.toNat ≤ (pixelsIn ws).length →
    ∃ (t : State) (rs : List Word), session (encode .start :: ws) s = .next (t, rs) ∧
      t.phase = .encoded ∧
      t.npix.toNat = s.width.toNat * s.height.toNat ∧
      t.aBs = s.bsize ∧ t.aTh = s.thresh ∧ t.aInv = s.invert ∧
      let buf := encodePixels t.aBs.toNat t.aTh t.aInv ((pixelsIn ws).take t.npix.toNat)
      t.plen.toNat = buf.length ∧ ∀ k, k < t.plen.toNat → t.pbuf.read k = buf[k]?

/-- 70_reset_and_hazards R214: without a START, a conversion stays ENCODING exactly as long as pixels are missing, and
FORMAT and RDPB are rejected with SEQ meanwhile. -/
def Obligations.UnfinishedConversionWaits : Prop :=
  ∀ (ws : List Word) (s t : State) (rs : List Word), s.Inv → s.phase = .encoding →
    (∀ w ∈ ws, decode w ≠ some .start) → session ws s = .next (t, rs) →
    (t.phase = .encoding ↔ s.pidx.toNat + (pixelsIn ws).length < s.npix.toNat) ∧
    (s.pidx.toNat + (pixelsIn ws).length < s.npix.toNat →
      exec .format t = .next (rejectedAs 4 t) ∧ ∀ idx, exec (.rdpb idx) t = .next (rejectedAs 4 t))

/-! The formatter. -/

/-- 42_formatter R151: the length of the text, and that it fits TLEN for any packed buffer. -/
def Obligations.TextLengthFormula : Prop :=
  ∀ bytes : List Byte,
    (formatText bytes).length =
      (if bytes.length = 0 then 0 else 5 * bytes.length - 1 + (bytes.length - 1) / 8) ∧
    (bytes.length ≤ 2 ^ 24 → (formatText bytes).length < 6 * 2 ^ 24 ∧ (formatText bytes).length < 2 ^ 32)

/-- 42_formatter R153: CharAt is the character of FormatText at every position of the text. -/
def Obligations.CharAtIsFormatText : Prop :=
  ∀ (bytes : List Byte) (t : Nat), t < textLen bytes.length → (formatText bytes)[t]? = some (charAt bytes t)

/-- 42_formatter R150, R152, R157: the text is lines of up to 8 tokens separated by commas, the lines separated by a comma
and a line break: no trailing comma, no final line break, nothing else. The characters are the codes of R152, written
out: a token is 0x30, 0x78 and the lowercase hexadecimal digits of its byte, high digit first; the comma is 0x2C and the
line break 0x0A. -/
def Obligations.TextIsWrappedTokens : Prop :=
  let digit (d : Nat) : Byte := if d ≤ 9 then BitVec.ofNat 8 (0x30 + d) else BitVec.ofNat 8 (0x61 + (d - 10))
  let tokenOf (x : Byte) : List Byte := [0x30, 0x78, digit (x.toNat / 16), digit (x.toNat % 16)]
  (∀ x : Byte, token x = tokenOf x) ∧ charComma = 0x2C ∧ charLF = 0x0A ∧
  ∀ bytes : List Byte, formatText bytes =
    List.intercalate [0x2C, 0x0A] ((bytes.toChunks 8).map fun line => List.intercalate [0x2C] (line.map tokenOf))

/-- 42_formatter R156: "the characters a host collects after one FORMAT spell exactly FormatText(PBUF[0 .. PLEN-1])", and
every TXT after them returns 0. -/
def Obligations.CollectedTextIsFormatText : Prop :=
  ∀ (s : State) (extra : Nat), s.Inv → s.phase = .encoded →
    let text := formatText (packedBytes s)
    ∃ t, session (encode .format :: List.replicate (text.length + extra) (encode .txt)) s =
        .next (t, 0 :: ((text.map fun c => 0x100 ||| c.setWidth 32) ++ List.replicate extra 0)) ∧
      t.pbuf = s.pbuf ∧ t.phase = .encoded
end

