-- ==== Sys2Proof/Laws/Channel.lean ====
section
/-! SUPPORT. What a step and an edge can do, said once, and the unfolding of a session. -/

namespace Sys2Proof.Machine

open Host

theorem step_idle {s : State} (h : s.inputs = []) : step s = .next s := by simp [step, clockStep, h]

theorem step_input {s : State} {p : Pins} {rest : List Pins} (h : s.inputs = p :: rest) :
    step s = edge p { s with inputs := rest } := by simp [step, clockStep, h]

theorem edge_reset {p : Pins} {s : State} (h : p.rst = true) : edge p s = .next (resetBlock s) := by simp [edge, h]

theorem edge_command {p : Pins} {s : State} (hr : p.rst = false) (hv : p.cmdValid = true) (hs : s.rsp = none) :
    edge p s = runWord p.cmdData s := by simp [edge, cmdReady, hr, hv, hs]

theorem edge_quiet {p : Pins} {s : State} (hr : p.rst = false) (hv : p.cmdValid = false) (hs : s.rsp = none) :
    edge p s = .next s := by simp [edge, rspValid, hr, hv, hs]

theorem edge_take {p : Pins} {s : State} {r : Word} (hr : p.rst = false) (hs : s.rsp = some r)
    (hp : p.rspReady = true) : edge p s = .next { s with rsp := none } := by
  simp [edge, cmdReady, rspValid, hr, hs, hp]

theorem edge_hold {p : Pins} {s : State} {r : Word} (hr : p.rst = false) (hs : s.rsp = some r)
    (hp : p.rspReady = false) : edge p s = .next s := by simp [edge, cmdReady, hr, hs, hp]

theorem runWord_decoded {w : Word} {i : Instr} (h : decode w = some i) (s : State) : runWord w s = exec i s := by
  simp [runWord, h]

theorem runWord_illegal {w : Word} (h : decode w = none) (s : State) : runWord w s = reject .ill s := by
  simp [runWord, h]

@[simp] theorem session_nil (s : State) : session [] s = .next (s, []) := rfl

/-- A session answers exactly when its first command and the rest do. -/
theorem session_cons_next {w : Word} {ws : List Word} {s t : State} {rs : List Word} :
    session (w :: ws) s = .next (t, rs) ↔
      ∃ s1 rs', runWord w s = .next s1 ∧ session ws { s1 with rsp := none } = .next (t, rs') ∧
        rs = s1.rsp.getD 0 :: rs' := by
  simp only [session]
  constructor
  · intro h
    split at h
    · rename_i s1 h1
      split at h
      · rename_i s2 rs2 h2
        simp only [Outcome.next.injEq, Prod.mk.injEq] at h
        exact ⟨s1, rs2, h1, by rw [h2, h.1], h.2.symm⟩
      · simp at h
      · simp at h
    · simp at h
    · simp at h
  · rintro ⟨s1, rs', h1, h2, rfl⟩
    simp [h1, h2]

end Sys2Proof.Machine
end

