-- ==== Sys2Proof/Laws/Ops.lean ====
section
/-! SUPPORT. What each shared operation can do, said once: memory reads and writes, the zeroing loop, the bit-packer's
read-modify-write, accepting and rejecting. -/

namespace Sys2Proof.Machine

open Host

/-! Memory as a list. -/

theorem Memory.read_write_same (k : Nat) (v : Byte) (m : Memory) : Memory.read k (Memory.write k v m) = some v := by
  induction m with
  | nil => simp [Memory.write, Memory.read]
  | cons c m ih =>
    simp only [Memory.write]
    split
    · simp [Memory.read]
    · split
      · simp [Memory.read]
      · rename_i _ hne
        simp [Memory.read, Ne.symm hne, ih]

theorem Memory.read_write_other {k j : Nat} (h : j ≠ k) (v : Byte) (m : Memory) :
    Memory.read j (Memory.write k v m) = Memory.read j m := by
  induction m with
  | nil => simp [Memory.write, Memory.read, Ne.symm h]
  | cons c m ih =>
    simp only [Memory.write]
    split
    · simp [Memory.read, Ne.symm h]
    · split
      · rename_i _ heq
        simp [Memory.read, ← heq, Ne.symm h]
      · simp [Memory.read, ih]

/-- Reading after a write, in one equation. -/
theorem Memory.read_write (k j : Nat) (v : Byte) (m : Memory) :
    Memory.read j (Memory.write k v m) = if j = k then some v else Memory.read j m := by
  split
  · rename_i h; rw [h, Memory.read_write_same]
  · rename_i h; rw [Memory.read_write_other h]

theorem Memory.mem_write {k : Nat} {v : Byte} {m : Memory} {c : Cell} (h : c ∈ Memory.write k v m) :
    c = (k, v) ∨ c ∈ m := by
  induction m with
  | nil => simpa [Memory.write] using h
  | cons d m ih =>
    simp only [Memory.write] at h
    split at h
    · simpa using h
    · split at h
      · simp only [List.mem_cons] at h ⊢
        rcases h with h | h
        · exact .inl h
        · exact .inr (.inr h)
      · simp only [List.mem_cons] at h ⊢
        rcases h with h | h
        · exact .inr (.inl h)
        · exact (ih h).imp_right .inr

/-- A write keeps the canonical form. -/
theorem Memory.write_wf (k : Nat) (v : Byte) (m : Memory) (h : Memory.wf m) : Memory.wf (Memory.write k v m) := by
  induction m with
  | nil => simp [Memory.write, Memory.wf]
  | cons c m ih =>
    simp only [Memory.wf, List.pairwise_cons] at h ⊢
    simp only [Memory.write]
    split
    · rename_i hlt
      simp only [List.pairwise_cons, List.mem_cons, forall_eq_or_imp]
      exact ⟨⟨hlt, fun d hd => lt_trans hlt (h.1 d hd)⟩, h⟩
    · split
      · rename_i _ heq
        simp only [List.pairwise_cons]
        exact ⟨fun d hd => heq ▸ h.1 d hd, h.2⟩
      · rename_i hlt hne
        simp only [List.pairwise_cons]
        refine ⟨fun d hd => ?_, ih h.2⟩
        rcases Memory.mem_write hd with rfl | hd
        · exact lt_of_le_of_ne (not_lt.mp hlt) (Ne.symm hne)
        · exact h.1 d hd

theorem reset_memory_wf : State.reset.pbuf.wf := by decide

/-- The capacity's range (00_scope R6). -/
theorem pbufBytes_range : 1 ≤ Config.pbufBytes ∧ Config.pbufBytes ≤ 2 ^ 24 := by
  have := Config.pbufBytesLessOne.isLt
  unfold Config.pbufBytes
  omega

/-! The memory operations over the state: if one answers a value, then exactly this. -/

theorem memRead_ok {k : Nat} {s : State} {v : Byte} :
    memRead k s = .ok v ↔ k < Config.pbufBytes ∧ s.pbuf.read k = some v := by
  unfold memRead
  split
  · split <;> simp_all
  · simp_all

theorem memWrite_ok {k : Nat} {v : Byte} {s t : State} :
    memWrite k v s = .ok t ↔ k < Config.pbufBytes ∧ t = { s with pbuf := s.pbuf.write k v } := by
  unfold memWrite
  split
  · simp_all [eq_comm]
  · simp_all

/-- The zeroing loop inside the capacity: it answers, changes nothing but PBUF, and zeroes exactly its range. -/
theorem zeroFill_spec (len : Nat) (s : State) (h : len ≤ Config.pbufBytes) :
    ∃ m, zeroFill len s = .ok { s with pbuf := m } ∧
      (∀ k, m.read k = if k < len then some 0 else s.pbuf.read k) ∧
      (s.pbuf.wf → m.wf) ∧
      ((∀ c ∈ s.pbuf, c.1 < Config.pbufBytes) → ∀ c ∈ m, c.1 < Config.pbufBytes) := by
  induction len with
  | zero => exact ⟨s.pbuf, rfl, fun k => by simp, id, id⟩
  | succ len ih =>
    obtain ⟨m, hm, hread, hwf, hin⟩ := ih (by omega)
    refine ⟨m.write len 0, ?_, fun k => ?_, fun hs => Memory.write_wf _ _ _ (hwf hs), fun hs c hc => ?_⟩
    · simp only [zeroFill, hm]
      exact memWrite_ok.mpr ⟨by omega, rfl⟩
    · rw [Memory.read_write, hread]
      by_cases hk : k = len
      · simp [hk]
      · have : (k < len + 1) ↔ k < len := by omega
        simp [hk, this]
    · rcases Memory.mem_write hc with rfl | hc
      · simp only; omega
      · exact hin hs c hc

/-- The bit-packer's read-modify-write: if it answers, the byte had a value and only its one byte is rewritten. -/
theorem packPixel_ok {i : Nat} {v : BitVec 1} {s t : State} :
    packPixel i v s = .ok t ↔
      ∃ old, byteIndex s.aBs.toNat i < Config.pbufBytes ∧ s.pbuf.read (byteIndex s.aBs.toNat i) = some old ∧
        t = { s with pbuf := s.pbuf.write (byteIndex s.aBs.toNat i) (setBitTo old (bitPos s.aBs.toNat i) v) } := by
  unfold packPixel
  constructor
  · intro h
    split at h
    · rename_i old hr
      obtain ⟨hlt, hread⟩ := memRead_ok.mp hr
      exact ⟨old, hlt, hread, (memWrite_ok.mp h).2⟩
    · simp at h
  · rintro ⟨old, hlt, hread, rfl⟩
    simp only [memRead_ok.mpr ⟨hlt, hread⟩]
    exact memWrite_ok.mpr ⟨hlt, rfl⟩

/-! Outcomes. -/

theorem orFault_next {α : Type} {x : Except Fault α} {k : α → Outcome State Fault Refusal} {t : State} :
    orFault x k = .next t ↔ ∃ a, x = .ok a ∧ k a = .next t := by
  cases x <;> simp [orFault]

@[simp] theorem orFault_ok {α : Type} (a : α) (k : α → Outcome State Fault Refusal) : orFault (.ok a) k = k a := rfl

@[simp] theorem orFault_error {α : Type} (f : Fault) (k : α → Outcome State Fault Refusal) :
    orFault (.error f) k = .fault f := rfl

theorem accept_next {r : Word} {s t : State} : accept r s = .next t ↔ t = { s with rsp := some r } := by
  simp [accept, eq_comm]

theorem reject_next {code : ErrorCode} {s t : State} :
    reject code s = .next t ↔ t = { s with err := raiseFlag s.err code, rsp := some 0 } := by
  simp [reject, eq_comm]

/-- A flag once raised is 1, and every other flag is as it was (60_exceptions R191). -/
theorem raiseFlag_bit (err : BitVec 5) (code : ErrorCode) (e : Nat) :
    (raiseFlag err code).getLsbD e = (err.getLsbD e || decide (e = code.number)) := by
  by_cases he : e < 5
  · have : e = 0 ∨ e = 1 ∨ e = 2 ∨ e = 3 ∨ e = 4 := by omega
    rcases this with rfl | rfl | rfl | rfl | rfl <;> cases code <;>
      simp [raiseFlag, ErrorCode.flag, ErrorCode.number]
  · have hc : e ≠ code.number := by cases code <;> (simp only [ErrorCode.number]; omega)
    simp [raiseFlag, BitVec.getLsbD_of_ge _ _ (not_lt.mp he), hc]

/-- Clearing flags by mask (43_readback R172). -/
theorem clearFlags_bit (err mask : BitVec 5) (e : Nat) :
    (clearFlags err mask).getLsbD e = (err.getLsbD e && !mask.getLsbD e) := by
  by_cases he : e < 5
  · simp [clearFlags, he]
  · simp [clearFlags, BitVec.getLsbD_of_ge _ _ (not_lt.mp he)]

/-! Operands and functions. -/

theorem legalBlockSize_cases {bs : BitVec 4} (h : legalBlockSize bs = true) : bs = 2 ∨ bs = 4 ∨ bs = 8 := by
  simpa [legalBlockSize, or_assoc] using h

theorem regValue_none_iff (n : BitVec 4) (s : State) : regValue n s = none ↔ 14 ≤ n.toNat := by
  have := n.isLt
  unfold regValue
  split <;> simp_all
  omega

/-- The bit write, bit by bit (41_encoder R124). -/
theorem setBitTo_bit (old : Byte) (pos j : Nat) (v : BitVec 1) (hj : j < 8) :
    (setBitTo old pos v).getLsbD j = if j = pos then v.getLsbD 0 else old.getLsbD j := by
  have hv : ∀ i, v.getLsbD i = (decide (i = 0) && v.getLsbD 0) := by
    intro i
    by_cases hi : i = 0
    · simp [hi]
    · simp [BitVec.getLsbD_of_ge v i (by omega), hi]
  simp only [setBitTo, BitVec.getLsbD_or, BitVec.getLsbD_and, BitVec.getLsbD_not, BitVec.getLsbD_shiftLeft,
    BitVec.getLsbD_setWidth, BitVec.getLsbD_one, hj, decide_true, Bool.true_and]
  rw [hv (j - pos)]
  by_cases h : j = pos
  · simp [h]
  · by_cases hlt : j < pos
    · simp [h, hlt]
    · have : ¬ j - pos = 0 := by omega
      simp [h, hlt, this]

end Sys2Proof.Machine
end

