-- ==== Sys2Proof/Laws/PerInstr.lean ====
section
/-! SUPPORT. A statement about every instruction as syntax, one lemma per constructor. -/

namespace Sys2Proof.Laws

/-- The row of the opcode map for an instruction (30_encoding R84). -/
def rowIndex : Instr → Nat
  | .nop => 0
  | .setw _ => 1
  | .seth _ => 2
  | .setbs _ => 3
  | .setth _ => 4
  | .setinv _ => 5
  | .setbg _ => 6
  | .start => 7
  | .pixel _ _ _ => 8
  | .format => 9
  | .txt => 10
  | .rdpb _ => 11
  | .rdreg _ => 12
  | .clrerr _ => 13

/-- The opcode bits of an instruction's word name its row of the opcode map (30_encoding R80, R84). -/
def OpcodeField.Statement (i : Instr) : Prop := (encode i).extractLsb' 28 4 = BitVec.ofNat 4 (rowIndex i)

/-- The upper field of a command word is the opcode it was built with. -/
theorem commandWord_op (op : BitVec 4) {n : Nat} (payload : BitVec n) :
    (commandWord op payload).extractLsb' 28 4 = op := by
  apply BitVec.eq_of_getLsbD_eq
  intro i hi
  have h : ¬ 28 + i < 28 := by omega
  simp only [commandWord, BitVec.getLsbD_extractLsb', BitVec.getLsbD_append, hi, h, decide_true, Bool.true_and,
    if_false, Nat.add_sub_cancel_left]

theorem OpcodeField.nop : OpcodeField.Statement .nop := commandWord_op _ _
theorem OpcodeField.setw (imm16 : BitVec 16) : OpcodeField.Statement (.setw imm16) := commandWord_op _ _
theorem OpcodeField.seth (imm16 : BitVec 16) : OpcodeField.Statement (.seth imm16) := commandWord_op _ _
theorem OpcodeField.setbs (imm4 : BitVec 4) : OpcodeField.Statement (.setbs imm4) := commandWord_op _ _
theorem OpcodeField.setth (imm8 : BitVec 8) : OpcodeField.Statement (.setth imm8) := commandWord_op _ _
theorem OpcodeField.setinv (imm1 : BitVec 1) : OpcodeField.Statement (.setinv imm1) := commandWord_op _ _
theorem OpcodeField.setbg (imm1 : BitVec 1) : OpcodeField.Statement (.setbg imm1) := commandWord_op _ _
theorem OpcodeField.start : OpcodeField.Statement .start := commandWord_op _ _
theorem OpcodeField.pixel (r g b : BitVec 8) : OpcodeField.Statement (.pixel r g b) := commandWord_op _ _
theorem OpcodeField.format : OpcodeField.Statement .format := commandWord_op _ _
theorem OpcodeField.txt : OpcodeField.Statement .txt := commandWord_op _ _
theorem OpcodeField.rdpb (idx : BitVec 24) : OpcodeField.Statement (.rdpb idx) := commandWord_op _ _
theorem OpcodeField.rdreg (n : BitVec 4) : OpcodeField.Statement (.rdreg n) := commandWord_op _ _
theorem OpcodeField.clrerr (mask : BitVec 5) : OpcodeField.Statement (.clrerr mask) := commandWord_op _ _

end Sys2Proof.Laws
end

