-- ==== Sys2Proof/Laws/State.lean ====
section
/-! SUPPORT. One lemma per field per named update of the state, so that no proof unfolds a record update. -/

namespace Sys2Proof.Machine

@[simp] theorem beginConversion_width (n len : Nat) (s : State) : (beginConversion n len s).width = s.width := rfl
@[simp] theorem beginConversion_height (n len : Nat) (s : State) : (beginConversion n len s).height = s.height := rfl
@[simp] theorem beginConversion_bsize (n len : Nat) (s : State) : (beginConversion n len s).bsize = s.bsize := rfl
@[simp] theorem beginConversion_thresh (n len : Nat) (s : State) : (beginConversion n len s).thresh = s.thresh := rfl
@[simp] theorem beginConversion_invert (n len : Nat) (s : State) : (beginConversion n len s).invert = s.invert := rfl
@[simp] theorem beginConversion_bg (n len : Nat) (s : State) : (beginConversion n len s).bg = s.bg := rfl
@[simp] theorem beginConversion_aBs (n len : Nat) (s : State) : (beginConversion n len s).aBs = s.bsize := rfl
@[simp] theorem beginConversion_aTh (n len : Nat) (s : State) : (beginConversion n len s).aTh = s.thresh := rfl
@[simp] theorem beginConversion_aInv (n len : Nat) (s : State) : (beginConversion n len s).aInv = s.invert := rfl
@[simp] theorem beginConversion_phase (n len : Nat) (s : State) : (beginConversion n len s).phase = if n = 0 then .encoded else .encoding := rfl
@[simp] theorem beginConversion_npix (n len : Nat) (s : State) : (beginConversion n len s).npix = BitVec.ofNat 32 n := rfl
@[simp] theorem beginConversion_plen (n len : Nat) (s : State) : (beginConversion n len s).plen = BitVec.ofNat 32 len := rfl
@[simp] theorem beginConversion_pidx (n len : Nat) (s : State) : (beginConversion n len s).pidx = 0 := rfl
@[simp] theorem beginConversion_tlen (n len : Nat) (s : State) : (beginConversion n len s).tlen = 0 := rfl
@[simp] theorem beginConversion_tidx (n len : Nat) (s : State) : (beginConversion n len s).tidx = 0 := rfl
@[simp] theorem beginConversion_lum (n len : Nat) (s : State) : (beginConversion n len s).lum = s.lum := rfl
@[simp] theorem beginConversion_err (n len : Nat) (s : State) : (beginConversion n len s).err = s.err := rfl
@[simp] theorem beginConversion_pbuf (n len : Nat) (s : State) : (beginConversion n len s).pbuf = s.pbuf := rfl
@[simp] theorem beginConversion_rsp (n len : Nat) (s : State) : (beginConversion n len s).rsp = s.rsp := rfl
@[simp] theorem beginConversion_inputs (n len : Nat) (s : State) : (beginConversion n len s).inputs = s.inputs := rfl

@[simp] theorem countPixel_width (w : Nat) (s : State) : (countPixel w s).width = s.width := rfl
@[simp] theorem countPixel_height (w : Nat) (s : State) : (countPixel w s).height = s.height := rfl
@[simp] theorem countPixel_bsize (w : Nat) (s : State) : (countPixel w s).bsize = s.bsize := rfl
@[simp] theorem countPixel_thresh (w : Nat) (s : State) : (countPixel w s).thresh = s.thresh := rfl
@[simp] theorem countPixel_invert (w : Nat) (s : State) : (countPixel w s).invert = s.invert := rfl
@[simp] theorem countPixel_bg (w : Nat) (s : State) : (countPixel w s).bg = s.bg := rfl
@[simp] theorem countPixel_aBs (w : Nat) (s : State) : (countPixel w s).aBs = s.aBs := rfl
@[simp] theorem countPixel_aTh (w : Nat) (s : State) : (countPixel w s).aTh = s.aTh := rfl
@[simp] theorem countPixel_aInv (w : Nat) (s : State) : (countPixel w s).aInv = s.aInv := rfl
@[simp] theorem countPixel_phase (w : Nat) (s : State) : (countPixel w s).phase = if s.pidx + 1 = s.npix then .encoded else s.phase := rfl
@[simp] theorem countPixel_npix (w : Nat) (s : State) : (countPixel w s).npix = s.npix := rfl
@[simp] theorem countPixel_plen (w : Nat) (s : State) : (countPixel w s).plen = s.plen := rfl
@[simp] theorem countPixel_pidx (w : Nat) (s : State) : (countPixel w s).pidx = s.pidx + 1 := rfl
@[simp] theorem countPixel_tlen (w : Nat) (s : State) : (countPixel w s).tlen = s.tlen := rfl
@[simp] theorem countPixel_tidx (w : Nat) (s : State) : (countPixel w s).tidx = s.tidx := rfl
@[simp] theorem countPixel_lum (w : Nat) (s : State) : (countPixel w s).lum = BitVec.ofNat 22 w := rfl
@[simp] theorem countPixel_err (w : Nat) (s : State) : (countPixel w s).err = s.err := rfl
@[simp] theorem countPixel_pbuf (w : Nat) (s : State) : (countPixel w s).pbuf = s.pbuf := rfl
@[simp] theorem countPixel_rsp (w : Nat) (s : State) : (countPixel w s).rsp = s.rsp := rfl
@[simp] theorem countPixel_inputs (w : Nat) (s : State) : (countPixel w s).inputs = s.inputs := rfl

@[simp] theorem offerWord_width (w : Word) (s : State) : (offerWord w s).width = s.width := rfl
@[simp] theorem offerWord_height (w : Word) (s : State) : (offerWord w s).height = s.height := rfl
@[simp] theorem offerWord_bsize (w : Word) (s : State) : (offerWord w s).bsize = s.bsize := rfl
@[simp] theorem offerWord_thresh (w : Word) (s : State) : (offerWord w s).thresh = s.thresh := rfl
@[simp] theorem offerWord_invert (w : Word) (s : State) : (offerWord w s).invert = s.invert := rfl
@[simp] theorem offerWord_bg (w : Word) (s : State) : (offerWord w s).bg = s.bg := rfl
@[simp] theorem offerWord_aBs (w : Word) (s : State) : (offerWord w s).aBs = s.aBs := rfl
@[simp] theorem offerWord_aTh (w : Word) (s : State) : (offerWord w s).aTh = s.aTh := rfl
@[simp] theorem offerWord_aInv (w : Word) (s : State) : (offerWord w s).aInv = s.aInv := rfl
@[simp] theorem offerWord_phase (w : Word) (s : State) : (offerWord w s).phase = s.phase := rfl
@[simp] theorem offerWord_npix (w : Word) (s : State) : (offerWord w s).npix = s.npix := rfl
@[simp] theorem offerWord_plen (w : Word) (s : State) : (offerWord w s).plen = s.plen := rfl
@[simp] theorem offerWord_pidx (w : Word) (s : State) : (offerWord w s).pidx = s.pidx := rfl
@[simp] theorem offerWord_tlen (w : Word) (s : State) : (offerWord w s).tlen = s.tlen := rfl
@[simp] theorem offerWord_tidx (w : Word) (s : State) : (offerWord w s).tidx = s.tidx := rfl
@[simp] theorem offerWord_lum (w : Word) (s : State) : (offerWord w s).lum = s.lum := rfl
@[simp] theorem offerWord_err (w : Word) (s : State) : (offerWord w s).err = s.err := rfl
@[simp] theorem offerWord_pbuf (w : Word) (s : State) : (offerWord w s).pbuf = s.pbuf := rfl
@[simp] theorem offerWord_rsp (w : Word) (s : State) : (offerWord w s).rsp = none := rfl
@[simp] theorem offerWord_inputs (w : Word) (s : State) : (offerWord w s).inputs = Pins.command w :: s.inputs := rfl

@[simp] theorem resetBlock_width (s : State) : (resetBlock s).width = State.reset.width := rfl
@[simp] theorem resetBlock_height (s : State) : (resetBlock s).height = State.reset.height := rfl
@[simp] theorem resetBlock_bsize (s : State) : (resetBlock s).bsize = State.reset.bsize := rfl
@[simp] theorem resetBlock_thresh (s : State) : (resetBlock s).thresh = State.reset.thresh := rfl
@[simp] theorem resetBlock_invert (s : State) : (resetBlock s).invert = State.reset.invert := rfl
@[simp] theorem resetBlock_bg (s : State) : (resetBlock s).bg = State.reset.bg := rfl
@[simp] theorem resetBlock_aBs (s : State) : (resetBlock s).aBs = State.reset.aBs := rfl
@[simp] theorem resetBlock_aTh (s : State) : (resetBlock s).aTh = State.reset.aTh := rfl
@[simp] theorem resetBlock_aInv (s : State) : (resetBlock s).aInv = State.reset.aInv := rfl
@[simp] theorem resetBlock_phase (s : State) : (resetBlock s).phase = State.reset.phase := rfl
@[simp] theorem resetBlock_npix (s : State) : (resetBlock s).npix = State.reset.npix := rfl
@[simp] theorem resetBlock_plen (s : State) : (resetBlock s).plen = State.reset.plen := rfl
@[simp] theorem resetBlock_pidx (s : State) : (resetBlock s).pidx = State.reset.pidx := rfl
@[simp] theorem resetBlock_tlen (s : State) : (resetBlock s).tlen = State.reset.tlen := rfl
@[simp] theorem resetBlock_tidx (s : State) : (resetBlock s).tidx = State.reset.tidx := rfl
@[simp] theorem resetBlock_lum (s : State) : (resetBlock s).lum = State.reset.lum := rfl
@[simp] theorem resetBlock_err (s : State) : (resetBlock s).err = State.reset.err := rfl
@[simp] theorem resetBlock_pbuf (s : State) : (resetBlock s).pbuf = State.reset.pbuf := rfl
@[simp] theorem resetBlock_rsp (s : State) : (resetBlock s).rsp = State.reset.rsp := rfl
@[simp] theorem resetBlock_inputs (s : State) : (resetBlock s).inputs = s.inputs := rfl

@[simp] theorem withFetchWord_eq (s : State) (nbits w : Nat) :
    s.withFetchWord nbits w = offerWord (BitVec.ofNat 32 (w % 2 ^ nbits)) s := rfl

end Sys2Proof.Machine
end

