-- ==== Sys2Proof/Tests/Slice0.lean ====
section
/-! SUPPORT. Small tests from the spec's own examples and vectors (30_encoding after R90, 95_test_vectors), and for every
statement with hypotheses a concrete case that meets them. -/

namespace Sys2Proof.Tests

open Sys2Proof Sys2Proof.Machine Host

/-! Decoding: every constructor from a word written out from its encoding (30_encoding R84, examples after R90). -/

theorem test_decode_nop : decode 0x00000000 = some .nop := by decide
theorem test_decode_setw : decode 0x1000FFFF = some (.setw 65535) := by decide
theorem test_decode_seth : decode 0x20000040 = some (.seth 64) := by decide
theorem test_decode_setbs : decode 0x30000004 = some (.setbs 4) := by decide
theorem test_decode_setth : decode 0x4000007F = some (.setth 127) := by decide
theorem test_decode_setinv : decode 0x50000001 = some (.setinv 1) := by decide
theorem test_decode_setbg : decode 0x60000001 = some (.setbg 1) := by decide
theorem test_decode_start : decode 0x70000000 = some .start := by decide
theorem test_decode_pixel : decode 0x80010203 = some (.pixel 1 2 3) := by decide
theorem test_decode_format : decode 0x90000000 = some .format := by decide
theorem test_decode_txt : decode 0xA0000000 = some .txt := by decide
theorem test_decode_rdpb : decode 0xB0000003 = some (.rdpb 3) := by decide
theorem test_decode_rdreg : decode 0xC000000F = some (.rdreg 15) := by decide
theorem test_decode_clrerr : decode 0xD000001F = some (.clrerr 0x1F) := by decide

/-- 95_test_vectors D2, D4, D6, D8 to D11, D13 to D16 and 30_encoding's 0x30000103. -/
theorem test_decode_illegal : ([0x00000001, 0x10010000, 0x30000010, 0x40000100, 0x50000002, 0x70000001,
    0x8F000000, 0xD0000020, 0xE0000000, 0xF0000000, 0xB1000000, 0x30000103] : List Word).all (fun w => (decode w).isNone) = true := by
  decide

theorem test_illegal_reasons : illegalReason 0xE0000000 = some .reservedOp ∧
    illegalReason 0x30000103 = some .reservedBit ∧ illegalReason 0 = none := by decide

/-- 30_encoding, encoding examples after R90. -/
theorem test_encode_examples : encode (.setw 8) = 0x10000008 ∧ encode (.setbs 4) = 0x30000004 ∧
    encode (.pixel 255 0 0) = 0x80FF0000 ∧ encode (.pixel 0 255 0) = 0x8000FF00 ∧ encode (.rdpb 3) = 0xB0000003 ∧
    encode (.clrerr 0x1F) = 0xD000001F := by decide

theorem test_table_word : decodeTableWord 32 0x8000FF00 = some (.pixel 0 255 0) := by decide

/-! Well-formedness: one source line that each check refuses (30_encoding R89). -/

theorem test_wf_refuses : ∀ line ∈ [AsmLine.setw 65536, .seth 65536, .setbs 16, .setth 256, .setinv 2, .setbg 2,
    .pixel 256 0 0, .pixel 0 256 0, .pixel 0 0 256, .rdpb 16777216, .rdreg 16, .clrerr 32, .pixa 256 0 0 0,
    .pixa 0 256 0 0, .pixa 0 0 256 0, .pixa 0 0 0 256, .config 65536 0 0 0 0 0, .config 0 65536 0 0 0 0,
    .config 0 0 16 0 0 0, .config 0 0 0 256 0 0, .config 0 0 0 0 2 0, .config 0 0 0 0 0 2],
    line.wf = false ∧ line.assemble = none := by decide

theorem test_wf_admits : ∀ line ∈ [AsmLine.setw 65535, .setbs 15, .setth 255, .setbg 1, .pixel 255 255 255,
    .rdpb (16777215), .rdreg 15, .clrerr 31, .pixa 0 0 0 255, .clrerrAll, .rdstat], line.wf = true := by decide

/-! The assembly text (30_encoding R89, R90 and the listings of 95_test_vectors). -/

theorem test_text_pixel : assembleText "PIXEL 255, 0, 0".toList = some [0x80FF0000] := by decide
theorem test_text_comment : assembleText "        SETW 8              ; width".toList = some [0x10000008] := by decide
theorem test_text_names : assembleText "SETBG black".toList = some [0x60000001] ∧
    assembleText "RDREG STATUS".toList = some [0xC0000006] := by decide
theorem test_text_clrerr : assembleText "CLRERR".toList = some [0xD000001F] ∧
    assembleText "CLRERR 0x02".toList = some [0xD0000002] := by decide
theorem test_text_errors : assembleText "SETW 65536".toList = none ∧ assembleText "setw 8".toList = none ∧
    assembleText "PIXEL 1,2".toList = none := by decide
theorem test_text_program : assembleProgram ["SETW 2".toList, "; no word".toList, "RDSTAT".toList] =
    some [0x10000002, 0xC0000006] := by decide

/-! The encoder's functions (95_test_vectors 2.1 to 2.4). -/

theorem test_luminance : scaledLuminance 255 0 0 = 542130 ∧ scaledLuminance 0 255 0 = 1823760 ∧
    scaledLuminance 0 0 255 = 184110 ∧ scaledLuminance 255 255 255 = 2550000 := by decide

/-- T1, T2, T3, T4, T8, T9, T10, T11. -/
theorem test_decide : decidedBit 255 0 0 127 0 = 0 ∧ decidedBit 0 255 0 127 0 = 1 ∧
    decidedBit 100 100 100 100 0 = 0 ∧ decidedBit 101 100 100 100 0 = 1 ∧ decidedBit 0 0 1 0 0 = 1 ∧
    decidedBit 0 0 0 0 1 = 1 ∧ decidedBit 255 255 255 255 1 = 1 ∧ decidedBit 9 9 9 9 0 = 0 := by decide

theorem test_placement : (byteIndex 4 6, bitPos 4 6) = (1, 1) ∧ (byteIndex 2 5, bitPos 2 5) = (2, 0) ∧
    (byteIndex 8 17, bitPos 8 17) = (2, 6) := by decide

/-- 41_encoder R124's example. -/
theorem test_setBit : setBitTo 0x80 5 1 = 0xA0 ∧ setBitTo 0xFF 5 0 = 0xDF := by decide

/-- Vector E4 by white and black pixels. -/
theorem test_encode_e4 : encodePixels 2 127 0
    [⟨255, 255, 255⟩, ⟨0, 0, 0⟩, ⟨255, 255, 255⟩, ⟨255, 255, 255⟩, ⟨255, 255, 255⟩] = [0x02, 0x03, 0x02] := by decide

/-- Vector E7: inversion at block size 8 with a partial byte. -/
theorem test_encode_e7 : encodePixels 8 127 0 [⟨255, 255, 255⟩, ⟨0, 0, 0⟩, ⟨255, 255, 255⟩] = [0xA0] ∧
    encodePixels 8 127 1 [⟨255, 255, 255⟩, ⟨0, 0, 0⟩, ⟨255, 255, 255⟩] = [0x40] := by decide

/-! The formatter's functions (95_test_vectors 2.5). -/

theorem test_text_f1_f4 : formatText [] = [] ∧ formatText [0xFF] = [0x30, 0x78, 0x66, 0x66] ∧
    formatText [0xAB, 0xCD] = [0x30, 0x78, 0x61, 0x62, 0x2C, 0x30, 0x78, 0x63, 0x64] := by decide

/-- The digits 9 and a, high digit first, comma and line break (42_formatter R152). -/
theorem test_token_codes : token 0x9A = [0x30, 0x78, 0x39, 0x61] ∧ token 0xF0 = [0x30, 0x78, 0x66, 0x30] ∧
    charComma = 0x2C ∧ charLF = 0x0A := by decide

theorem test_textLen : textLen 0 = 0 ∧ textLen 1 = 4 ∧ textLen 8 = 39 ∧ textLen 9 = 45 ∧ textLen 16 = 80 ∧
    textLen 17 = 86 := by decide

/-- The CharAt vectors of F7. -/
theorem test_charAt : [0, 1, 3, 4, 39, 40, 41, 44].map (charAt [1, 2, 3, 4, 5, 6, 7, 8, 9]) =
    [0x30, 0x78, 0x31, 0x2C, 0x2C, 0x0A, 0x30, 0x39] := by decide

/-! One step of each command. -/

/-- The next state of an outcome, if it is one. -/
def nextOf {α : Type} : Outcome α Fault Refusal → Option α
  | .next s => some s
  | _ => none

/-- Program P1 of 95_test_vectors before its last pixel: 8 pixels expected, 7 accepted, PBUF[0] = 0xB0. -/
def encodingState : State :=
  { State.reset with width := 8, height := 1, phase := .encoding, npix := 8, plen := 1, pidx := 7, pbuf := [(0, 0xB0)] }

/-- Program P1 with its text all but read: FORMAT and three TXT given. -/
def encodedState : State :=
  { encodingState with phase := .encoded, pidx := 8, tlen := 4, tidx := 3 }

theorem test_nop : nextOf (exec .nop State.reset) = some { State.reset with rsp := some 0 } := by decide
theorem test_setw : nextOf (exec (.setw 128) State.reset) = some { State.reset with width := 128, rsp := some 0 } := by
  decide
theorem test_seth : nextOf (exec (.seth 64) State.reset) = some { State.reset with height := 64, rsp := some 0 } := by
  decide
theorem test_setbs : nextOf (exec (.setbs 4) State.reset) = some { State.reset with bsize := 4, rsp := some 0 } := by
  decide
theorem test_setbs_cfg : nextOf (exec (.setbs 3) State.reset) = some { State.reset with err := 2, rsp := some 0 } := by
  decide
theorem test_setth : (nextOf (exec (.setth 200) encodingState)).map (fun t => (t.thresh, t.aTh)) = some (200, 127) := by
  decide
theorem test_setinv : (nextOf (exec (.setinv 1) State.reset)).map (fun t => (t.invert, t.aInv)) = some (1, 0) := by
  decide
theorem test_setbg : (nextOf (exec (.setbg 1) State.reset)).map (fun t => t.bg) = some 1 := by decide
/-- 41_encoder R130's example. -/
theorem test_start : (nextOf (exec .start { State.reset with width := 8, height := 1, lum := 7 })).map
    (fun t => (t.npix, t.plen, t.pbuf, t.phase)) = some (8, 1, [(0, 0)], .encoding) := by decide
/-- Program P5: the empty conversion. -/
theorem test_start_empty : (nextOf (exec .start State.reset)).map (fun t => (t.plen, t.phase, t.err)) =
    some (0, .encoded, 0) := by decide
/-- The last pixel of P1 with its luminance, and a white one instead. -/
theorem test_pixel : (nextOf (exec (.pixel 255 0 0) encodingState)).map
    (fun t => (t.pbuf, t.lum, t.pidx, t.phase, t.rsp)) = some ([(0, 0xB0)], 0x845B2, 8, .encoded, some 0xFF) := by
  decide
theorem test_pixel_white : (nextOf (exec (.pixel 255 255 255) encodingState)).map (fun t => (t.pbuf, t.rsp)) =
    some ([(0, 0xB1)], some 0xFFFFFFFF) := by decide
/-- Vector X2 and the example of 42_formatter R155. -/
theorem test_format : (nextOf (exec .format State.reset)).map (fun t => t.err) = some 4 ∧
    (nextOf (exec .format encodedState)).map (fun t => (t.tlen, t.tidx)) = some (4, 0) := by decide
/-- 42_formatter R156's example: the fourth character, then the end. -/
theorem test_txt : (nextOf (exec .txt encodedState)).map (fun t => (t.rsp, t.tidx)) = some (some 0x130, 4) ∧
    (nextOf (exec .txt { encodedState with tidx := 2 })).map (fun t => t.rsp) = some (some 0x162) := by decide
theorem test_txt_end : nextOf (exec .txt State.reset) = some { State.reset with rsp := some 0 } := by decide
/-- 43_readback R170's example; vectors X8 and X7. -/
theorem test_rdpb : nextOf (exec (.rdpb 0) encodedState) = some { encodedState with rsp := some 0xB0 } := by decide
theorem test_rdpb_errors : (nextOf (exec (.rdpb 1) encodedState)).map (fun t => t.err) = some 16 ∧
    (nextOf (exec (.rdpb 5) encodingState)).map (fun t => t.err) = some 4 := by decide
/-- Vectors X12, X13. -/
theorem test_rdreg : (nextOf (exec (.rdreg 13) State.reset)).map (fun t => t.rsp) = some (some 0x7F8) ∧
    (nextOf (exec (.rdreg 14) State.reset)).map (fun t => (t.rsp, t.err)) = some (some 0, 1) := by decide
/-- STATUS of the end of P2: the RANGE flag and PHASE 2. -/
theorem test_rdreg_status : (nextOf (exec (.rdreg 6) { encodedState with tidx := 4, err := 16 })).map (fun t => t.rsp) =
    some (some 0x102) := by decide
/-- Vectors X10, X11. -/
theorem test_clrerr : (nextOf (runWord 0xD0000005 { State.reset with err := 7 })).map (fun t => t.err) = some 2 ∧
    (nextOf (runWord 0xD0000040 { State.reset with err := 2 })).map (fun t => t.err) = some 3 := by decide

/-! The channel. -/

/-- One command placed by `withFetchWord` runs in the next step. -/
theorem test_step_runs : nextOf (step (State.reset.withFetchWord 32 0x10000080)) =
    some { State.reset with width := 128, rsp := some 0 } := by decide
theorem test_step_reset : nextOf (step { encodedState with rsp := some 5, inputs := [{ rst := true, cmdValid := true }] }) =
    some State.reset := by decide
theorem test_step_take : nextOf (step { State.reset with rsp := some 5, inputs := [Pins.take] }) = some State.reset := by
  decide
theorem test_step_holds : nextOf (step { State.reset with rsp := some 5, inputs := [Pins.command 0x10000080] }) =
    some { State.reset with rsp := some 5 } := by decide
/-- The faults that no run reaches: a byte without a value, and an index that does not exist. -/
theorem test_read_no_value : memRead 0 State.reset = .error (.pbufNoValue 0) := by
  have := pbufBytes_range.1
  simp [memRead, State.reset, Memory.read, Nat.lt_of_lt_of_le Nat.zero_lt_one this]
theorem test_read_outside (s : State) : memRead 16777216 s = .error (.pbufOutside 16777216) := by
  have := pbufBytes_range.2
  simp [memRead, show ¬ 16777216 < Config.pbufBytes by omega]

/-! Witnesses: for each statement with hypotheses, a case that meets them all, each clause at a boundary. -/

theorem encodingState_inv : encodingState.Inv where
  blockSizes := by decide
  phaseLegal := by decide
  idleEmpty := by decide
  packedLength := ⟨by decide, pbufBytes_range.1⟩
  pixelIndex := by decide
  textLength := by decide
  textIndex := by decide
  packedBits := by
    intro k hk
    have hk0 : k = 0 := by simpa [encodingState] using hk
    subst hk0
    refine ⟨0xB0, by decide, fun j hj => ⟨7 - j, ?_⟩⟩
    have hj8 : j < 8 := by
      by_contra h
      simp [BitVec.getLsbD_of_ge _ _ (not_lt.mp h)] at hj
    revert hj
    interval_cases j <;> decide
  memoryWf := by decide
  memoryInside := by
    intro c hc
    simp only [encodingState, List.mem_singleton] at hc
    subst hc
    exact pbufBytes_range.1

theorem encodedState_inv : encodedState.Inv where
  blockSizes := by decide
  phaseLegal := by decide
  idleEmpty := by decide
  packedLength := ⟨by decide, pbufBytes_range.1⟩
  pixelIndex := by decide
  textLength := by decide
  textIndex := by decide
  packedBits := by
    intro k hk
    obtain ⟨v, hv, h⟩ := encodingState_inv.packedBits k hk
    exact ⟨v, hv, fun j hj => let ⟨i, hi, h⟩ := h j hj; ⟨i, Nat.lt_succ_of_lt hi, h⟩⟩
  memoryWf := encodingState_inv.memoryWf
  memoryInside := encodingState_inv.memoryInside

theorem witness_EncodeDecodeRoundTrip : decode 0x80FFFFFF = some (.pixel 255 255 255) := by decide
theorem witness_IllegalWordsAreRejected : decode 0xE0000000 = none ∧ decode 0xF0000000 = none ∧
    decode 0x10010000 = none ∧ decode 0x00000001 = none := by decide
/-- AssembledLinesDecode: the last value inside each range decodes to the command with that operand; the first value
outside is refused (test_wf_refuses). -/
theorem witness_AssembledLinesDecode : ([(.setw 65535, .setw 65535), (.seth 65535, .seth 65535), (.setbs 15, .setbs 15),
    (.setth 255, .setth 255), (.setinv 1, .setinv 1), (.setbg 1, .setbg 1), (.pixel 255 255 255, .pixel 255 255 255),
    (.rdpb 16777215, .rdpb 16777215), (.rdreg 15, .rdreg 15), (.clrerr 31, .clrerr 31),
    (.pixa 255 255 255 255, .pixel 255 255 255)] : List (AsmLine × Instr)).all
    (fun x => x.1.assemble.map (fun ws => ws.map decode) == some [some x.2]) = true := by decide
theorem witness_AssembledLinesDecode_config :
    (AsmLine.config 65535 65535 15 255 1 1).assemble.map (fun ws => ws.map decode) =
      some [some (.setw 65535), some (.seth 65535), some (.setbs 15), some (.setth 255), some (.setinv 1),
        some (.setbg 1)] := by decide
theorem witness_AssemblyTableWords : (AsmLine.setw 65535).assemble = some [0x1000FFFF] ∧
    (AsmLine.seth 65535).assemble = some [0x2000FFFF] ∧ (AsmLine.setbs 15).assemble = some [0x3000000F] ∧
    (AsmLine.setth 255).assemble = some [0x400000FF] ∧ (AsmLine.setinv 1).assemble = some [0x50000001] ∧
    (AsmLine.setbg 1).assemble = some [0x60000001] ∧ (AsmLine.pixel 255 255 255).assemble = some [0x80FFFFFF] ∧
    (AsmLine.rdpb (16777215)).assemble = some [0xB0FFFFFF] ∧ (AsmLine.rdreg 15).assemble = some [0xC000000F] ∧
    (AsmLine.clrerr 31).assemble = some [0xD000001F] := by decide
theorem witness_PseudoInstructionsExpand : (AsmLine.pixa 1 2 3 255).assemble = some [0x80010203] := by decide
/-- For each opcode its greatest word with no reserved bit set and the word with its lowest reserved bit: the word clauses
of NopChangesNothing, ConfigurationWritesOneRegister, SetBlockSizeChecksItsValue, StartBeginsConversion,
PixelPacksItsBit, FormatStartsText, TxtReturnsNextCharacter, ReadPackedByte, ReadRegisterTable, ClearErrorsByMask. -/
theorem witness_wordClauses : ([(0x00000000, 0), (0x00000001, 0), (0x1000FFFF, 1), (0x10010000, 1),
    (0x2000FFFF, 2), (0x20010000, 2), (0x3000000F, 3), (0x30000010, 3), (0x400000FF, 4), (0x40000100, 4),
    (0x50000001, 5), (0x50000002, 5), (0x60000001, 6), (0x60000002, 6), (0x70000000, 7), (0x70000001, 7),
    (0x80FFFFFF, 8), (0x81000000, 8), (0x90000000, 9), (0x90000001, 9), (0xA0000000, 10), (0xA0000001, 10),
    (0xB0FFFFFF, 11), (0xB1000000, 11), (0xC000000F, 12), (0xC0000010, 12), (0xD000001F, 13), (0xD0000020, 13)] :
    List (Word × BitVec 4)).all (fun x => x.1.extractLsb' 28 4 == x.2) = true := by decide
theorem witness_SetBlockSize : ∀ bs ∈ ([0, 1, 3, 5, 6, 7, 9, 15] : List (BitVec 4)), legalBlockSize bs = false := by
  decide

/-- START: exactly the capacity is accepted, and a full-size image at block size 8 never fits. -/
theorem witness_StartBeginsConversion :
    legalBlockSize encodingState.bsize = true ∧
    ⌈((encodingState.width.toNat * encodingState.height.toNat : ℕ) : ℚ) / (encodingState.bsize.toNat : ℚ)⌉₊
      ≤ Config.pbufBytes ∧
    Config.pbufBytes < ⌈((65535 * 65535 : ℕ) : ℚ) / ((8 : ℕ) : ℚ)⌉₊ := by
  have h := pbufBytes_range
  refine ⟨by decide, ?_, ?_⟩
  · rw [Nat.ceil_le]
    have h1 : (1 : ℚ) ≤ Config.pbufBytes := by exact_mod_cast h.1
    have e : ((encodingState.width.toNat * encodingState.height.toNat : ℕ) : ℚ) / (encodingState.bsize.toNat : ℚ) = 1 := by
      simp [encodingState, State.reset]
    rw [e]; exact h1
  · rw [Nat.lt_ceil]
    have h2 : (Config.pbufBytes : ℚ) ≤ 2 ^ 24 := by exact_mod_cast h.2
    refine lt_of_le_of_lt h2 ?_
    norm_num

theorem witness_PixelPacksItsBit : encodingState.Inv ∧ encodingState.phase = .encoding ∧
    encodedState.Inv ∧ encodedState.phase ≠ .encoding := ⟨encodingState_inv, rfl, encodedState_inv, by decide⟩
theorem witness_FormatStartsText : encodedState.Inv ∧ encodedState.phase = .encoded ∧
    encodingState.Inv ∧ encodingState.phase ≠ .encoded := ⟨encodedState_inv, rfl, encodingState_inv, by decide⟩
theorem witness_TxtReturnsNextCharacter : encodedState.Inv ∧ encodedState.tidx.toNat < encodedState.tlen.toNat ∧
    encodingState.Inv ∧ encodingState.tlen.toNat ≤ encodingState.tidx.toNat :=
  ⟨encodedState_inv, by decide, encodingState_inv, by decide⟩
/-- RDPB at PLEN - 1, at PLEN, and outside ENCODED. -/
theorem witness_ReadPackedByte : encodedState.Inv ∧ encodedState.phase = .encoded ∧
    (0 : BitVec 24).toNat < encodedState.plen.toNat ∧ encodedState.plen.toNat ≤ (1 : BitVec 24).toNat ∧
    encodingState.Inv ∧ encodingState.phase ≠ .encoded :=
  ⟨encodedState_inv, rfl, by decide, by decide, encodingState_inv, by decide⟩
theorem witness_ReadRegisterTable : regValue 0 encodedState = some 8 ∧ regValue 13 encodedState = some 0x7F8 ∧
    regValue 14 encodedState = none ∧ regValue 15 encodedState = none := by decide
/-- StatusBitLayout: the three phases (10_state R30). -/
theorem witness_StatusBitLayout : State.reset.phase = .idle ∧ encodingState.phase = .encoding ∧
    encodedState.phase = .encoded ∧ (statusView encodingState).extractLsb' 0 2 = 1 := by decide
theorem witness_ErrorsAreExactAndAtomic : errorOf 0xC000000E State.reset = some .ill ∧
    errorOf 0x30000003 State.reset = some .cfg ∧ errorOf 0x90000000 State.reset = some .seq ∧
    errorOf 0xB0000001 encodedState = some .range ∧ encodedState.Inv ∧ errorOf 0xB0000000 encodedState = none :=
  ⟨by decide, by decide, by decide, by decide, encodedState_inv, by decide⟩
theorem witness_errorOf_cap : errorOf 0x70000000 { State.reset with width := 65535, height := 65535 } = some .cap := by
  have h := pbufBytes_range.2
  have hd : decode 0x70000000 = some .start := by decide
  have hc : ceilDiv ((65535 : BitVec 16).toNat * (65535 : BitVec 16).toNat) (State.reset.bsize.toNat) = 536854529 := by
    decide
  simp only [errorOf, hd, hc]
  rw [if_pos (by omega)]
theorem witness_AtMostOneErrorPerCommand : encodingState.err = 0 ∧
    (nextOf (runWord 0xE0000000 encodingState)).isSome = true ∧ encodingState.phase ≠ .encoded ∧
    encodingState.plen.toNat ≤ (1 : BitVec 24).toNat := by decide
/-- A START and a PIXEL that change state the frame names, and a CLRERR that clears a flag. -/
theorem witness_StateChangesOnlyByNamedCommands :
    (nextOf (runWord 0x80FFFFFF encodingState)).map (fun t => (t.phase, t.pidx, t.lum, t.pbuf.read 0)) =
      some (.encoded, 8, 2550000, some 0xB1) ∧
    (nextOf (runWord 0x70000000 { encodedState with bsize := 4, width := 0 })).map (fun t => (t.aBs, t.npix, t.tlen)) =
      some (4, 0, 0) := by decide
theorem witness_ConversionIgnoresConfigurationRegisters :
    ∀ w ∈ ([0x80FFFFFF, 0xC0000006, 0x90000000, 0xA0000000, 0xE0000000] : List Word), ∀ i, decode w = some i →
      touchesConfiguration i = false ∧ touchesBackground i = false := by
  intro w hw i hi
  simp only [List.mem_cons, List.not_mem_nil, or_false] at hw
  rcases hw with rfl | rfl | rfl | rfl | rfl
  · rw [show decode 0x80FFFFFF = some (.pixel 255 255 255) by decide] at hi; cases hi; decide
  · rw [show decode 0xC0000006 = some (.rdreg 6) by decide] at hi; cases hi; decide
  · rw [show decode 0x90000000 = some (.format) by decide] at hi; cases hi; decide
  · rw [show decode 0xA0000000 = some (.txt) by decide] at hi; cases hi; decide
  · rw [show decode 0xE0000000 = none by decide] at hi; cases hi

/-- A state that meets the invariants and steps, and one whose memory alone is in form. -/
theorem witness_StepKeepsInvariants : ({ encodingState with inputs := [Pins.command 0x80FFFFFF] } : State).Inv ∧
    (nextOf (step { encodingState with inputs := [Pins.command 0x80FFFFFF] })).isSome = true :=
  ⟨{ encodingState_inv with }, by decide⟩
theorem witness_ResetEdgeRestoresTable :
    ({ encodedState with inputs := [{ rst := true }] } : State).inputs = [{ rst := true }] := by decide
theorem witness_StepRunsDecodedInstruction :
    ({ encodedState with inputs := [Pins.command 0xB0000000] } : State).inputs = [Pins.command 0xB0000000] ∧
    (Pins.command 0xB0000000).cmdValid = true ∧ (Pins.command 0xB0000000).rst = false ∧ encodedState.rsp = none ∧
    decode (Pins.command 0xB0000000).cmdData = some (.rdpb 0) ∧ decode (Pins.command 0xE0000000).cmdData = none := by
  decide
theorem witness_OutstandingResponseIsHeld : ∀ p ∈ [Pins.take, Pins.command 0],
    ({ encodedState with rsp := some 0xB0, inputs := [p] } : State).rsp = some 0xB0 ∧ p.rst = false := by decide
/-- Offer, offer again while outstanding, take, offer: two commands accepted, one response still outstanding. -/
theorem witness_HandshakeRunsCommandsInOrder :
    acceptedWords false [Pins.command 0xB0000000, Pins.command 0x70000000, Pins.take, Pins.command 0xA0000000] =
      [0xB0000000, 0xA0000000] ∧ encodedState.rsp = none := by decide
theorem witness_EncodeClosedForm : 1 < (encodePixels 4 127 0 (List.replicate 6 ⟨255, 255, 255⟩)).length := by decide
/-- Byte 0 is a full block and byte 1 a partial one. -/
theorem witness_InvertSymmetry : (0 + 1) * 4 ≤ 6 ∧ ¬ (1 + 1) * 4 ≤ 6 ∧
    encodePixels 4 127 1 (List.replicate 6 ⟨0, 0, 0⟩) = [0x0F, 0x0C] := by decide
theorem witness_ConversionComputesEncode :
    (∀ w ∈ List.replicate 8 (0x80FFFFFF : Word), decode w ≠ some .start) ∧
    encodingState.width.toNat * encodingState.height.toNat ≤ (pixelsIn (List.replicate 8 0x80FFFFFF)).length ∧
    ceilDiv (encodingState.width.toNat * encodingState.height.toNat) encodingState.bsize.toNat ≤ Config.pbufBytes :=
  ⟨fun w hw => by rw [List.eq_of_mem_replicate hw]; decide, by decide, pbufBytes_range.1⟩
/-- With no more pixels the conversion waits; with the last one it is done. -/
theorem witness_UnfinishedConversionWaits : encodingState.Inv ∧ encodingState.phase = .encoding ∧
    decode 0xC0000006 ≠ some .start ∧ (nextOf (session [0xC0000006] encodingState)).isSome = true ∧
    (nextOf (session [0x80FFFFFF] encodingState)).isSome = true :=
  ⟨encodingState_inv, rfl, by decide, by decide, by decide⟩
/-- PlacementMatchesSourceFormulas and PlacementIsOneToOne: the last pixel of a block and the first of the next. -/
theorem witness_Placement : ((2 : Nat) = 2 ∨ (2 : Nat) = 4 ∨ (2 : Nat) = 8) ∧ byteIndex 2 1 = 0 ∧ bitPos 2 1 = 0 ∧
    byteIndex 2 2 = 1 ∧ bitPos 2 2 = 1 ∧ byteIndex 8 7 = 0 ∧ bitPos 8 7 = 0 := by decide
theorem witness_PackedBufferLength : ((8 : Nat) = 2 ∨ (8 : Nat) = 4 ∨ (8 : Nat) = 8) ∧
    (encodePixels 8 127 0 (List.replicate 9 ⟨255, 255, 255⟩)) = [0xFF, 0x80] := by decide
/-- BackgroundIsNeverObserved: START, PIXEL and RDREG 4 neither write nor read BG. -/
theorem witness_BackgroundIsNeverObserved : [Instr.start, .pixel 255 255 255, .rdreg 4, .format, .txt].all
    (fun i => !touchesBackground i) = true ∧ touchesBackground (.rdreg 5) = true := by decide
/-- StepNeverStops: a state that meets the invariants and has a command to run. -/
theorem witness_StepNeverStops : ({ encodedState with inputs := [Pins.command 0xA0000000] } : State).Inv :=
  { encodedState_inv with }
/-- SessionsAnswerEveryCommand: a command between two others, and the responses of all three. -/
theorem witness_SessionsAnswerEveryCommand :
    ([0xB0000000, 0xA0000000, 0xC0000006] : List Word) = [0xB0000000] ++ 0xA0000000 :: [0xC0000006] ∧
    encodedState.Inv ∧ (nextOf (session [0xB0000000, 0xA0000000, 0xC0000006] encodedState)).map Prod.snd =
      some [0xB0, 0x130, 2] := ⟨rfl, encodedState_inv, by decide⟩
theorem witness_StepKeepsCanonicalMemory : (({ encodingState with pbuf := [(0, 1), (5, 0)] } : State).pbuf.wf) ∧
    ¬ (({ encodingState with pbuf := [(5, 0), (0, 1)] } : State).pbuf.wf) := by decide
theorem witness_TextLengthFormula : ([0xAB, 0xCD] : List Byte).length ≤ 2 ^ 24 := by decide
/-- CollectedTextIsFormatText: an ENCODED state whose text is pending. -/
theorem witness_CollectedTextIsFormatText : encodedState.Inv ∧ encodedState.phase = .encoded ∧
    formatText (packedBytes encodedState) = [0x30, 0x78, 0x62, 0x30] := ⟨encodedState_inv, rfl, by decide⟩
theorem witness_CharAtIsFormatText : 44 < textLen ([1, 2, 3, 4, 5, 6, 7, 8, 9] : List Byte).length := by decide

end Sys2Proof.Tests
end

section
/-! What an accepted or rejected command leaves, said once; every frame and every invariant below
is a case split over it. -/

namespace Sys2Proof.Machine

open Host

/-- What an accepted command leaves of `s`, its response apart: one case per way of accepting. The memory that START
zeroes is given by what it reads. -/
inductive Effect (s : State) : Instr → State → Prop
  | nop : Effect s .nop s
  | setw (x : BitVec 16) : Effect s (.setw x) { s with width := x }
  | seth (x : BitVec 16) : Effect s (.seth x) { s with height := x }
  | setbs (x : BitVec 4) (legal : legalBlockSize x = true) : Effect s (.setbs x) { s with bsize := x }
  | setth (x : BitVec 8) : Effect s (.setth x) { s with thresh := x }
  | setinv (x : BitVec 1) : Effect s (.setinv x) { s with invert := x }
  | setbg (x : BitVec 1) : Effect s (.setbg x) { s with bg := x }
  | start (n len : Nat) (m : Memory) (pixels : n = s.width.toNat * s.height.toNat)
      (length : len = ceilDiv n s.bsize.toNat) (fits : len ≤ Config.pbufBytes)
      (zeroed : ∀ k, m.read k = if k < len then some 0 else s.pbuf.read k)
      (wf : s.pbuf.wf → m.wf)
      (inside : (∀ c ∈ s.pbuf, c.1 < Config.pbufBytes) → ∀ c ∈ m, c.1 < Config.pbufBytes) :
      Effect s .start { beginConversion n len s with pbuf := m }
  | pixel (r g b : BitVec 8) (k : Nat) (old : Byte) (encoding : s.phase = .encoding)
      (place : k = byteIndex s.aBs.toNat s.pidx.toNat) (inBuffer : k < Config.pbufBytes)
      (value : s.pbuf.read k = some old) :
      Effect s (.pixel r g b) (countPixel (scaledLuminance r g b) { s with
        pbuf := s.pbuf.write k (setBitTo old (bitPos s.aBs.toNat s.pidx.toNat) (decidedBit r g b s.aTh s.aInv)) })
  | format (encoded : s.phase = .encoded) :
      Effect s .format { s with tlen := BitVec.ofNat 32 (textLen s.plen.toNat), tidx := 0 }
  | txt (pending : s.tidx.toNat < s.tlen.toNat) : Effect s .txt { s with tidx := s.tidx + 1 }
  | txtEnd (done : s.tlen.toNat ≤ s.tidx.toNat) : Effect s .txt s
  | rdpb (idx : BitVec 24) (encoded : s.phase = .encoded) (below : idx.toNat < s.plen.toNat) :
      Effect s (.rdpb idx) s
  | rdreg (n : BitVec 4) : Effect s (.rdreg n) s
  | clrerr (mask : BitVec 5) : Effect s (.clrerr mask) { s with err := clearFlags s.err mask }

/-- What a rejection leaves (60_exceptions R191). -/
def rejected (code : ErrorCode) (s : State) : State := { s with err := raiseFlag s.err code, rsp := some 0 }

/-- What a command that completes leaves: a rejection, or its effect with a response. -/
def Completes (i : Instr) (s t : State) : Prop :=
  (∃ code, t = rejected code s) ∨ ∃ u r, Effect s i u ∧ t = { u with rsp := some r }

theorem completes_of_accept {i : Instr} {s u t : State} {r : Word} (hu : Effect s i u) (h : accept r u = .next t) :
    Completes i s t := .inr ⟨u, r, hu, accept_next.mp h⟩

theorem completes_of_reject {i : Instr} {s t : State} {code : ErrorCode} (h : reject code s = .next t) :
    Completes i s t := .inl ⟨code, reject_next.mp h⟩

theorem execSetbs_completes {x : BitVec 4} {s t : State} (h : execSetbs x s = .next t) : Completes (.setbs x) s t := by
  unfold execSetbs at h
  split at h
  · next legal => exact completes_of_accept (.setbs x legal) h
  · exact completes_of_reject h

theorem execStart_completes {s t : State} (h : execStart s = .next t) : Completes .start s t := by
  unfold execStart at h
  dsimp only at h
  split at h
  · exact completes_of_reject h
  · next fits =>
    have fits := not_lt.mp fits
    obtain ⟨m, hm, zeroed, wf, inside⟩ := zeroFill_spec _ (beginConversion _ _ s) fits
    rw [hm, orFault_ok] at h
    exact completes_of_accept (.start _ _ m rfl rfl fits zeroed wf inside) h

theorem execPixel_completes {r g b : BitVec 8} {s t : State} (h : execPixel r g b s = .next t) :
    Completes (.pixel r g b) s t := by
  unfold execPixel at h
  split at h
  · next encoding =>
    obtain ⟨u, hu, h⟩ := orFault_next.mp h
    obtain ⟨old, inBuffer, value, rfl⟩ := packPixel_ok.mp hu
    exact completes_of_accept (.pixel r g b _ old encoding rfl inBuffer value) h
  · exact completes_of_reject h

theorem execFormat_completes {s t : State} (h : execFormat s = .next t) : Completes .format s t := by
  unfold execFormat at h
  split at h
  · next encoded => exact completes_of_accept (.format encoded) h
  · exact completes_of_reject h

theorem execTxt_completes {s t : State} (h : execTxt s = .next t) : Completes .txt s t := by
  unfold execTxt at h
  split at h
  · next pending =>
    obtain ⟨c, -, h⟩ := orFault_next.mp h
    exact completes_of_accept (.txt pending) h
  · next done => exact completes_of_accept (.txtEnd (not_lt.mp done)) h

theorem execRdpb_completes {idx : BitVec 24} {s t : State} (h : execRdpb idx s = .next t) :
    Completes (.rdpb idx) s t := by
  unfold execRdpb at h
  split at h
  · next encoded =>
    split at h
    · exact completes_of_reject h
    · next below =>
      obtain ⟨v, -, h⟩ := orFault_next.mp h
      exact completes_of_accept (.rdpb idx encoded (not_le.mp below)) h
  · exact completes_of_reject h

theorem execRdreg_completes {n : BitVec 4} {s t : State} (h : execRdreg n s = .next t) : Completes (.rdreg n) s t := by
  unfold execRdreg at h
  split at h
  · exact completes_of_accept (.rdreg n) h
  · exact completes_of_reject h

/-- The inversion of `exec`: every next state is a rejection's or an effect's. -/
theorem exec_completes {i : Instr} {s t : State} (h : exec i s = .next t) : Completes i s t := by
  cases i with
  | nop => exact completes_of_accept .nop h
  | setw x => exact completes_of_accept (.setw x) h
  | seth x => exact completes_of_accept (.seth x) h
  | setbs x => exact execSetbs_completes h
  | setth x => exact completes_of_accept (.setth x) h
  | setinv x => exact completes_of_accept (.setinv x) h
  | setbg x => exact completes_of_accept (.setbg x) h
  | start => exact execStart_completes h
  | pixel r g b => exact execPixel_completes h
  | format => exact execFormat_completes h
  | txt => exact execTxt_completes h
  | rdpb idx => exact execRdpb_completes h
  | rdreg n => exact execRdreg_completes h
  | clrerr mask => exact completes_of_accept (.clrerr mask) h

/-- The inversion of a command word: an ILLEGAL word is one more rejection. -/
theorem runWord_completes {w : Word} {s t : State} (h : runWord w s = .next t) :
    (∃ code, t = rejected code s) ∨ ∃ i u r, decode w = some i ∧ Effect s i u ∧ t = { u with rsp := some r } := by
  cases hd : decode w with
  | none =>
    rw [runWord_illegal hd] at h
    exact .inl ⟨.ill, reject_next.mp h⟩
  | some i =>
    rw [runWord_decoded hd] at h
    refine (exec_completes h).imp_right ?_
    rintro ⟨u, r, hu, ht⟩
    exact ⟨i, u, r, rfl, hu, ht⟩

/-- Every command word that completes presents a response (30_encoding R88). -/
theorem runWord_presents {w : Word} {s t : State} (h : runWord w s = .next t) : ∃ r, t.rsp = some r := by
  obtain ⟨code, rfl⟩ | ⟨i, u, r, -, -, rfl⟩ := runWord_completes h
  · exact ⟨0, rfl⟩
  · exact ⟨r, rfl⟩

/-- What one step can do: nothing, a reset, a command, or taking the response (10_state R21). -/
theorem step_cases {s t : State} (h : step s = .next t) :
    t = s ∨ ∃ rest, t = resetBlock { s with inputs := rest } ∨
      (∃ w, runWord w { s with inputs := rest } = .next t) ∨
      t = { s with inputs := rest, rsp := none } ∨ t = { s with inputs := rest } := by
  cases hin : s.inputs with
  | nil =>
    rw [step_idle hin] at h
    exact .inl (by simpa using h.symm)
  | cons p rest =>
    rw [step_input hin] at h
    refine .inr ⟨rest, ?_⟩
    unfold edge at h
    split at h
    · exact .inl (by simpa using h.symm)
    · split at h
      · exact .inr (.inl ⟨_, h⟩)
      · split at h
        · exact .inr (.inr (.inl (by simpa using h.symm)))
        · exact .inr (.inr (.inr (by simpa using h.symm)))

/-! Frames. -/

/-- Raising a flag clears none (10_state R37). -/
theorem raiseFlag_keeps {err : BitVec 5} {code : ErrorCode} {e : Nat} (h : err.getLsbD e = true) :
    (raiseFlag err code).getLsbD e = true := by simp [raiseFlag_bit, h]

/-- Settles O24: a rejection touches only ERR, in which it clears nothing, and each effect is that of a named
command. -/
theorem stateChangesOnlyByNamedCommands : Obligations.StateChangesOnlyByNamedCommands := by
  intro w s t h
  obtain ⟨code, rfl⟩ | ⟨i, u, r, hd, hu, rfl⟩ := runWord_completes h
  · simp +contextual [rejected, raiseFlag_keeps]
  · cases hu <;> simp [hd]

/-! The canonical memory. -/

theorem Effect.keeps_wf {s u : State} {i : Instr} (h : Effect s i u) (hs : s.pbuf.wf) : u.pbuf.wf := by
  cases h with
  | start n len m pixels length fits zeroed wf inside => exact wf hs
  | pixel r g b k old encoding place inBuffer value => exact Memory.write_wf _ _ _ hs
  | _ => exact hs

theorem runWord_keeps_wf {w : Word} {s t : State} (hs : s.pbuf.wf) (h : runWord w s = .next t) : t.pbuf.wf := by
  obtain ⟨code, rfl⟩ | ⟨i, u, r, -, hu, rfl⟩ := runWord_completes h
  · exact hs
  · exact hu.keeps_wf hs

/-- Settles O30, by the cases of a step and of a command's effect. -/
theorem stepKeepsCanonicalMemory : Obligations.StepKeepsCanonicalMemory := by
  intro s t hs h
  obtain rfl | ⟨rest, rfl | ⟨w, hw⟩ | rfl | rfl⟩ := step_cases h
  · exact hs
  · exact reset_memory_wf
  · exact runWord_keeps_wf (s := { s with inputs := rest }) hs hw
  · exact hs
  · exact hs

end Sys2Proof.Machine
end

section
/-! The invariants of 10_state R44: at reset, after every effect, after every step; and no command stops under them. -/

namespace Sys2Proof.Machine

open Host

/-! Arithmetic of the registers and of the packing. -/

theorem toNat_add_one_of_lt {a b : BitVec 32} (h : a.toNat < b.toNat) : (a + 1).toNat = a.toNat + 1 := by
  have := b.isLt
  rw [BitVec.toNat_add]
  exact Nat.mod_eq_of_lt (by change a.toNat + 1 < 2 ^ 32; omega)

theorem toNat_pos_of_legal {bs : BitVec 4} (h : legalBlockSize bs = true) : 0 < bs.toNat := by
  obtain rfl | rfl | rfl := legalBlockSize_cases h <;> decide

/-- The byte of a pixel lies inside the packed buffer (41_encoder R123, R126). -/
theorem byteIndex_lt_ceilDiv {bs i n : Nat} (hbs : 0 < bs) (h : i < n) : byteIndex bs i < ceilDiv n bs := by
  have hstep : (i + bs) / bs ≤ (n + bs - 1) / bs := Nat.div_le_div_right (by omega)
  rw [Nat.add_div_right i hbs] at hstep
  exact hstep

theorem toNat_ofNat_textLen {n : Nat} (h : n ≤ 2 ^ 24) : (BitVec.ofNat 32 (textLen n)).toNat = textLen n := by
  rw [BitVec.toNat_ofNat, Nat.mod_eq_of_lt]
  unfold textLen
  split <;> omega

/-- The pixels of an image fit NPIX (10_state R31). -/
theorem toNat_ofNat_pixels (w h : BitVec 16) : (BitVec.ofNat 32 (w.toNat * h.toNat)).toNat = w.toNat * h.toNat := by
  have hmul : w.toNat * h.toNat ≤ (2 ^ 16 - 1) * (2 ^ 16 - 1) :=
    Nat.mul_le_mul (Nat.le_sub_one_of_lt w.isLt) (Nat.le_sub_one_of_lt h.isLt)
  rw [BitVec.toNat_ofNat, Nat.mod_eq_of_lt (by omega)]

theorem toNat_ofNat_of_le_pbufBytes {len : Nat} (h : len ≤ Config.pbufBytes) : (BitVec.ofNat 32 len).toNat = len := by
  have := pbufBytes_range.2
  rw [BitVec.toNat_ofNat, Nat.mod_eq_of_lt (by omega)]

/-- The byte whose digit stands at a position of the text is one of the bytes (42_formatter R151, R153). -/
theorem glyphAt_byte_lt {t n j : Nat} (ht : t < textLen n) (h : glyphAt t = .high j ∨ glyphAt t = .low j) : j < n := by
  have hn : n ≠ 0 := by
    rintro rfl
    exact Nat.not_lt_zero t ht
  simp only [textLen, if_neg hn] at ht
  simp only [glyphAt] at h
  split at h
  · simp at h
  · split at h <;> simp at h <;> omega

/-! The invariants. -/

/-- Settles O27: the reset state has no packed bytes, so the clauses about them are empty. -/
theorem invariantsHoldAtReset : Obligations.InvariantsHoldAtReset where
  blockSizes := by decide
  phaseLegal := by decide
  idleEmpty := by decide
  packedLength := ⟨by decide, Nat.zero_le _⟩
  pixelIndex := by decide
  textLength := by decide
  textIndex := by decide
  packedBits := fun k hk => absurd hk (Nat.not_lt_zero k)
  memoryWf := reset_memory_wf
  memoryInside := fun c hc => absurd hc List.not_mem_nil

/-- START: the latched configuration is legal, and every byte below PLEN is 0 (41_encoder R130). -/
theorem beginConversion_inv {s : State} {n len : Nat} {m : Memory} (hs : s.Inv)
    (pixels : n = s.width.toNat * s.height.toNat) (length : len = ceilDiv n s.bsize.toNat)
    (fits : len ≤ Config.pbufBytes) (zeroed : ∀ k, m.read k = if k < len then some 0 else s.pbuf.read k)
    (wf : m.wf) (inside : ∀ c ∈ m, c.1 < Config.pbufBytes) :
    ({ beginConversion n len s with pbuf := m } : State).Inv := by
  have hn : (BitVec.ofNat 32 n).toNat = n := by rw [pixels, toNat_ofNat_pixels]
  have hlen := toNat_ofNat_of_le_pbufBytes fits
  exact {
    blockSizes := ⟨hs.blockSizes.1, hs.blockSizes.1⟩
    phaseLegal := by simp only [beginConversion_phase]; split <;> decide
    idleEmpty := by simp only [beginConversion_phase]; split <;> simp
    packedLength := by
      simp only [beginConversion_plen, beginConversion_npix, beginConversion_aBs, hn, hlen]
      exact ⟨length, fits⟩
    pixelIndex := by
      simp only [beginConversion_phase, beginConversion_npix, beginConversion_pidx, hn]
      split
      · next hzero => simp [hzero]
      · next hne => simp [Nat.pos_of_ne_zero hne]
    textLength := by simp
    textIndex := by simp
    packedBits := fun k hk => ⟨0, (zeroed k).trans (if_pos (hk.trans_eq hlen)), by simp⟩
    memoryWf := wf
    memoryInside := inside }

/-- PIXEL: the written bit is the accepted pixel's own, and PHASE is ENCODED exactly at the last pixel
(41_encoder R131). -/
theorem countPixel_inv {s : State} {w k : Nat} {old : Byte} {v : BitVec 1} (hs : s.Inv) (encoding : s.phase = .encoding)
    (place : k = byteIndex s.aBs.toNat s.pidx.toNat) (inBuffer : k < Config.pbufBytes)
    (value : s.pbuf.read k = some old) :
    (countPixel w { s with pbuf := s.pbuf.write k (setBitTo old (bitPos s.aBs.toNat s.pidx.toNat) v) }).Inv := by
  have hlt := hs.pixelIndex.2.1 encoding
  have hsucc := toNat_add_one_of_lt hlt
  exact {
    blockSizes := hs.blockSizes
    phaseLegal := by simp only [countPixel_phase]; split <;> simp [encoding, Phase.code]
    idleEmpty := by simp only [countPixel_phase]; split <;> simp [encoding]
    packedLength := hs.packedLength
    pixelIndex := by
      simp only [countPixel_phase, countPixel_pidx, countPixel_npix]
      split
      · next hlast => exact ⟨by omega, by simp, fun _ => hlast⟩
      · next hmore =>
        have hne : s.pidx.toNat + 1 ≠ s.npix.toNat := fun h => hmore (BitVec.eq_of_toNat_eq (hsucc.trans h))
        simp only [encoding, hsucc, reduceCtorEq, false_imp_iff, and_true, true_imp_iff]
        omega
    textLength := fun htext => by
      have := (hs.textLength htext).1
      simp [encoding] at this
    textIndex := hs.textIndex
    packedBits := fun a ha => by
      obtain ⟨x, hx, hbits⟩ := hs.packedBits a ha
      simp only [countPixel_pbuf, countPixel_aBs, countPixel_pidx, hsucc, Memory.read_write]
      have earlier : ∀ j, x.getLsbD j = true → ∃ i, i < s.pidx.toNat + 1 ∧ byteIndex s.aBs.toNat i = a ∧
          bitPos s.aBs.toNat i = j := fun j hj =>
        let ⟨i, hi, hplace⟩ := hbits j hj
        ⟨i, Nat.lt_succ_of_lt hi, hplace⟩
      by_cases hak : a = k
      · subst hak
        obtain rfl : x = old := Option.some.inj (hx.symm.trans value)
        refine ⟨_, if_pos rfl, fun j hj => ?_⟩
        have hj8 : j < 8 := BitVec.lt_of_getLsbD hj
        rw [setBitTo_bit _ _ _ _ hj8] at hj
        split at hj
        · next hpos => exact ⟨s.pidx.toNat, Nat.lt_succ_self _, place.symm, hpos.symm⟩
        · exact earlier j hj
      · exact ⟨x, by rw [if_neg hak, hx], earlier⟩
    memoryWf := Memory.write_wf _ _ _ hs.memoryWf
    memoryInside := fun c hc => by
      obtain rfl | hc := Memory.mem_write hc
      · exact inBuffer
      · exact hs.memoryInside c hc }

/-- FORMAT: the length of the text fits TLEN, because PLEN is at most the capacity (42_formatter R151, R155). -/
theorem format_inv {s : State} (hs : s.Inv) (encoded : s.phase = .encoded) :
    ({ s with tlen := BitVec.ofNat 32 (textLen s.plen.toNat), tidx := 0 } : State).Inv :=
  { hs with
    idleEmpty := by simp [encoded]
    textLength := fun _ => ⟨encoded, toNat_ofNat_textLen (hs.packedLength.2.trans pbufBytes_range.2)⟩
    textIndex := by simp }

/-- TXT inside the text moves TIDX at most to TLEN (42_formatter R156). -/
theorem txt_inv {s : State} (hs : s.Inv) (pending : s.tidx.toNat < s.tlen.toNat) :
    ({ s with tidx := s.tidx + 1 } : State).Inv :=
  { hs with
    idleEmpty := fun hidle => by
      obtain ⟨-, -, -, htlen, -⟩ := hs.idleEmpty hidle
      simp [htlen] at pending
    textIndex := by
      rw [toNat_add_one_of_lt pending]
      exact pending }

theorem Effect.keeps_inv {s u : State} {i : Instr} (h : Effect s i u) (hs : s.Inv) : u.Inv := by
  cases h with
  | setbs x legal => exact { hs with blockSizes := ⟨legal, hs.blockSizes.2⟩ }
  | start n len m pixels length fits zeroed wf inside =>
    exact beginConversion_inv hs pixels length fits zeroed (wf hs.memoryWf) (inside hs.memoryInside)
  | pixel r g b k old encoding place inBuffer value => exact countPixel_inv hs encoding place inBuffer value
  | format encoded => exact format_inv hs encoded
  | txt pending => exact txt_inv hs pending
  | _ => exact { hs with }

theorem runWord_keeps_inv {w : Word} {s t : State} (hs : s.Inv) (h : runWord w s = .next t) : t.Inv := by
  obtain ⟨code, rfl⟩ | ⟨i, u, r, -, hu, rfl⟩ := runWord_completes h
  · exact { hs with }
  · exact { hu.keeps_inv hs with }

/-- Settles O28: a step is nothing, a reset (O27), a command, or a change of the channel alone. -/
theorem stepKeepsInvariants : Obligations.StepKeepsInvariants := by
  intro s t hs h
  obtain rfl | ⟨rest, rfl | ⟨w, hw⟩ | rfl | rfl⟩ := step_cases h
  · exact hs
  · exact { invariantsHoldAtReset with }
  · exact runWord_keeps_inv (s := { s with inputs := rest }) { hs with } hw
  · exact { hs with }
  · exact { hs with }

/-! Completion: under the invariants no command stops with a fault. -/

/-- A byte below PLEN can be read. -/
theorem memRead_of_lt_plen {s : State} {k : Nat} (hs : s.Inv) (hk : k < s.plen.toNat) : ∃ v, memRead k s = .ok v := by
  obtain ⟨v, hv, -⟩ := hs.packedBits k hk
  exact ⟨v, memRead_ok.mpr ⟨hk.trans_le hs.packedLength.2, hv⟩⟩

theorem pixel_byteIndex_lt_plen {s : State} (hs : s.Inv) (encoding : s.phase = .encoding) :
    byteIndex s.aBs.toNat s.pidx.toNat < s.plen.toNat := by
  rw [hs.packedLength.1]
  exact byteIndex_lt_ceilDiv (toNat_pos_of_legal hs.blockSizes.2) (hs.pixelIndex.2.1 encoding)

theorem packPixel_of_encoding {s : State} (hs : s.Inv) (encoding : s.phase = .encoding) (v : BitVec 1) :
    ∃ t, packPixel s.pidx.toNat v s = .ok t := by
  have hk := pixel_byteIndex_lt_plen hs encoding
  obtain ⟨old, hold⟩ := memRead_of_lt_plen hs hk
  obtain ⟨hin, hread⟩ := memRead_ok.mp hold
  exact ⟨_, packPixel_ok.mpr ⟨old, hin, hread, rfl⟩⟩

theorem textChar_of_pending {s : State} (hs : s.Inv) (pending : s.tidx.toNat < s.tlen.toNat) :
    ∃ c, textChar s.tidx.toNat s = .ok c := by
  have hne : s.tlen ≠ 0 := by
    rintro h
    simp [h] at pending
  rw [(hs.textLength hne).2] at pending
  unfold textChar
  split
  · exact ⟨_, rfl⟩
  · next j hj =>
    obtain ⟨v, hv⟩ := memRead_of_lt_plen hs (glyphAt_byte_lt pending (.inl hj))
    exact ⟨_, by rw [hv]; rfl⟩
  · next j hj =>
    obtain ⟨v, hv⟩ := memRead_of_lt_plen hs (glyphAt_byte_lt pending (.inr hj))
    exact ⟨_, by rw [hv]; rfl⟩

theorem execSetbs_next (x : BitVec 4) (s : State) : ∃ t, execSetbs x s = .next t := by
  unfold execSetbs
  split <;> exact ⟨_, rfl⟩

theorem execStart_next (s : State) : ∃ t, execStart s = .next t := by
  unfold execStart
  dsimp only
  split
  · exact ⟨_, rfl⟩
  · next fits =>
    obtain ⟨m, hm, -⟩ := zeroFill_spec _ (beginConversion _ _ s) (not_lt.mp fits)
    exact ⟨_, by rw [hm]; rfl⟩

theorem execPixel_next {s : State} (hs : s.Inv) (r g b : BitVec 8) : ∃ t, execPixel r g b s = .next t := by
  unfold execPixel
  dsimp only
  split
  · next encoding =>
    obtain ⟨u, hu⟩ := packPixel_of_encoding hs encoding (decidedBit r g b s.aTh s.aInv)
    exact ⟨_, by rw [hu]; rfl⟩
  · exact ⟨_, rfl⟩

theorem execFormat_next (s : State) : ∃ t, execFormat s = .next t := by
  unfold execFormat
  split <;> exact ⟨_, rfl⟩

theorem execTxt_next {s : State} (hs : s.Inv) : ∃ t, execTxt s = .next t := by
  unfold execTxt
  split
  · next pending =>
    obtain ⟨c, hc⟩ := textChar_of_pending hs pending
    exact ⟨_, by rw [hc]; rfl⟩
  · exact ⟨_, rfl⟩

theorem execRdpb_next {s : State} (hs : s.Inv) (idx : BitVec 24) : ∃ t, execRdpb idx s = .next t := by
  unfold execRdpb
  split
  · split
    · exact ⟨_, rfl⟩
    · next below =>
      obtain ⟨v, hv⟩ := memRead_of_lt_plen hs (not_le.mp below)
      exact ⟨_, by rw [hv]; rfl⟩
  · exact ⟨_, rfl⟩

theorem execRdreg_next (n : BitVec 4) (s : State) : ∃ t, execRdreg n s = .next t := by
  unfold execRdreg
  split <;> exact ⟨_, rfl⟩

/-- Under the invariants every command completes (93_implementation_defined I1). -/
theorem exec_next {s : State} (hs : s.Inv) (i : Instr) : ∃ t, exec i s = .next t := by
  cases i with
  | setbs x => exact execSetbs_next x s
  | start => exact execStart_next s
  | pixel r g b => exact execPixel_next hs r g b
  | format => exact execFormat_next s
  | txt => exact execTxt_next hs
  | rdpb idx => exact execRdpb_next hs idx
  | rdreg n => exact execRdreg_next n s
  | _ => exact ⟨_, rfl⟩

theorem runWord_next {s : State} (hs : s.Inv) (w : Word) : ∃ t, runWord w s = .next t := by
  cases hd : decode w with
  | none => exact ⟨_, runWord_illegal hd s⟩
  | some i =>
    rw [runWord_decoded hd]
    exact exec_next hs i

end Sys2Proof.Machine
end

section
/-! Updates of the host's side, which the conversion never looks at: the configuration registers between two STARTs
(10_state R29), BG (R28), and the model's own input list (log 4). -/

namespace Sys2Proof.Machine

open Host

/-! Outcomes and memory accesses under a change of the next state. -/

theorem mapNext_orFault {α : Type} (f : State → State) (x : Except Fault α) (k : α → Outcome State Fault Refusal) :
    mapNext f (orFault x k) = orFault x fun a => mapNext f (k a) := by
  cases x <;> rfl

theorem orFault_map {α β : Type} (g : α → β) (x : Except Fault α) (k : β → Outcome State Fault Refusal) :
    orFault (x.map g) k = orFault x fun a => k (g a) := by
  cases x <;> rfl

theorem mapNext_congr {α : Type} {f g : State → α} {x : Outcome State Fault Refusal}
    (h : ∀ t, x = .next t → f t = g t) : mapNext f x = mapNext g x := by
  cases x with
  | next t => exact congrArg Outcome.next (h t rfl)
  | fault e => rfl
  | refused e => rfl

/-- A write does not see an update that keeps PBUF and commutes with setting it. -/
theorem memWrite_commutes {f : State → State} (hpbuf : ∀ s, (f s).pbuf = s.pbuf)
    (hset : ∀ s (m : Memory), { f s with pbuf := m } = f { s with pbuf := m }) (k : Nat) (v : Byte) (s : State) :
    memWrite k v (f s) = (memWrite k v s).map f := by
  unfold memWrite
  rw [hpbuf, hset]
  split <;> rfl

/-! The host's side of the state. -/

/-- `s` with the configuration registers and the input list of `c`: everything that the commands of a conversion
neither read nor write. -/
def withHostSideOf (c s : State) : State := { withConfigurationOf c s with inputs := c.inputs }

/-- `f` changes nothing but the host's side, and does so by what stands in the host's side alone. -/
def UpdatesHostSide (f : State → State) : Prop := ∀ s t, f (withHostSideOf s t) = withHostSideOf (f s) t

/-- `s` with another value of BG. -/
def withBackground (b : BitVec 1) (s : State) : State := { s with bg := b }

/-- `s` with another list of coming pin values. -/
def withInputs (ps : List Pins) (s : State) : State := { s with inputs := ps }

theorem withConfigurationOf_updatesHostSide (c : State) : UpdatesHostSide (withConfigurationOf c) := fun _ _ => rfl

theorem withBackground_updatesHostSide (b : BitVec 1) : UpdatesHostSide (withBackground b) := fun _ _ => rfl

theorem withInputs_updatesHostSide (ps : List Pins) : UpdatesHostSide (withInputs ps) := fun _ _ => rfl

theorem packPixel_withHostSideOf (c s : State) (i : Nat) (v : BitVec 1) :
    packPixel i v (withHostSideOf c s) = (packPixel i v s).map (withHostSideOf c) := by
  have hread : ∀ k, memRead k (withHostSideOf c s) = memRead k s := fun _ => rfl
  have haBs : (withHostSideOf c s).aBs = s.aBs := rfl
  unfold packPixel
  rw [haBs, hread]
  split
  · exact memWrite_commutes (f := withHostSideOf c) (fun _ => rfl) (fun _ _ => rfl) _ _ _
  · rfl

theorem execPixel_withHostSideOf (c s : State) (r g b : BitVec 8) :
    execPixel r g b (withHostSideOf c s) = mapNext (withHostSideOf c) (execPixel r g b s) := by
  by_cases encoding : s.phase = .encoding
  · have encoding' : (withHostSideOf c s).phase = .encoding := encoding
    simp only [execPixel, if_pos encoding, if_pos encoding', mapNext_orFault]
    rw [packPixel_withHostSideOf]
    exact orFault_map ..
  · have encoding' : ¬ (withHostSideOf c s).phase = .encoding := encoding
    simp only [execPixel, if_neg encoding, if_neg encoding']
    rfl

theorem execFormat_withHostSideOf (c s : State) :
    execFormat (withHostSideOf c s) = mapNext (withHostSideOf c) (execFormat s) := by
  unfold execFormat
  rw [apply_ite (mapNext _)]
  rfl

theorem execTxt_withHostSideOf (c s : State) :
    execTxt (withHostSideOf c s) = mapNext (withHostSideOf c) (execTxt s) := by
  unfold execTxt
  rw [apply_ite (mapNext _), mapNext_orFault]
  rfl

theorem execRdpb_withHostSideOf (c s : State) (idx : BitVec 24) :
    execRdpb idx (withHostSideOf c s) = mapNext (withHostSideOf c) (execRdpb idx s) := by
  unfold execRdpb
  rw [apply_ite (mapNext _), apply_ite (mapNext _), mapNext_orFault]
  rfl

/-- RDREG reads the same where the register does, and changes the same. -/
theorem execRdreg_commutes {f : State → State} {n : BitVec 4} {s : State}
    (haccept : ∀ r, accept r (f s) = mapNext f (accept r s))
    (hreject : reject .ill (f s) = mapNext f (reject .ill s)) (hvalue : regValue n (f s) = regValue n s) :
    execRdreg n (f s) = mapNext f (execRdreg n s) := by
  unfold execRdreg
  rw [hvalue]
  split
  · exact haccept _
  · exact hreject

/-- The registers from number 6 on are not the host's (10_state R43). -/
theorem regValue_withHostSideOf (c s : State) {n : BitVec 4} (h : 6 ≤ n.toNat) :
    regValue n (withHostSideOf c s) = regValue n s := by
  unfold regValue
  split
  iterate 6 · omega
  all_goals rfl

theorem exec_withHostSideOf (c s : State) {i : Instr} (h : touchesConfiguration i = false) :
    exec i (withHostSideOf c s) = mapNext (withHostSideOf c) (exec i s) := by
  cases i with
  | nop => rfl
  | pixel r g b => exact execPixel_withHostSideOf c s r g b
  | format => exact execFormat_withHostSideOf c s
  | txt => exact execTxt_withHostSideOf c s
  | rdpb idx => exact execRdpb_withHostSideOf c s idx
  | rdreg n =>
    have hn : 6 ≤ n.toNat := by simpa [touchesConfiguration] using h
    exact execRdreg_commutes (fun _ => rfl) rfl (regValue_withHostSideOf c s hn)
  | clrerr mask => rfl
  | setw _ | seth _ | setbs _ | setth _ | setinv _ | setbg _ | start => cases h

/-- The frame of the commands of a conversion: they keep the host's side. -/
theorem Effect.keeps_hostSide {s u : State} {i : Instr} (h : Effect s i u) (hi : touchesConfiguration i = false) :
    withHostSideOf s u = u := by
  cases h with
  | setw _ | seth _ | setbs _ | setth _ | setinv _ | setbg _ | start => cases hi
  | _ => rfl

theorem exec_keeps_hostSide {s t : State} {i : Instr} (hi : touchesConfiguration i = false) (h : exec i s = .next t) :
    withHostSideOf s t = t := by
  obtain ⟨code, rfl⟩ | ⟨u, r, hu, rfl⟩ := exec_completes h
  · rfl
  · exact congrArg (fun v : State => { v with rsp := some r }) (hu.keeps_hostSide hi)

/-- An update of the host's side does not show in the commands of a conversion. -/
theorem exec_commutes_of_updatesHostSide {f : State → State} (hf : UpdatesHostSide f) (s : State) {i : Instr}
    (hi : touchesConfiguration i = false) : exec i (f s) = mapNext f (exec i s) := by
  calc exec i (f s) = exec i (withHostSideOf (f s) s) := congrArg (exec i) (hf s s)
    _ = mapNext (withHostSideOf (f s)) (exec i s) := exec_withHostSideOf _ _ hi
    _ = mapNext f (exec i s) := mapNext_congr fun t ht => by rw [← hf, exec_keeps_hostSide hi ht]

/-! BG and the input list also stay unseen by the SET commands and by START. -/

theorem execSetbs_commutes {f : State → State} {x : BitVec 4} {s : State}
    (haccept : accept 0 { f s with bsize := x } = mapNext f (accept 0 { s with bsize := x }))
    (hreject : reject .cfg (f s) = mapNext f (reject .cfg s)) :
    execSetbs x (f s) = mapNext f (execSetbs x s) := by
  unfold execSetbs
  rw [apply_ite (mapNext f), haccept, hreject]

theorem zeroFill_commutes {f : State → State} (hpbuf : ∀ s, (f s).pbuf = s.pbuf)
    (hset : ∀ s (m : Memory), { f s with pbuf := m } = f { s with pbuf := m }) (len : Nat) (s : State) :
    zeroFill len (f s) = (zeroFill len s).map f := by
  induction len with
  | zero => rfl
  | succ len ih =>
    simp only [zeroFill, ih]
    cases zeroFill len s with
    | ok u => exact memWrite_commutes hpbuf hset len 0 u
    | error e => rfl

theorem execStart_commutes {f : State → State} {s : State}
    (hsize : (f s).width = s.width ∧ (f s).height = s.height ∧ (f s).bsize = s.bsize)
    (hbegin : ∀ n len, beginConversion n len (f s) = f (beginConversion n len s))
    (hpbuf : ∀ s, (f s).pbuf = s.pbuf) (hset : ∀ s (m : Memory), { f s with pbuf := m } = f { s with pbuf := m })
    (haccept : ∀ s, accept 0 (f s) = mapNext f (accept 0 s))
    (hreject : reject .cap (f s) = mapNext f (reject .cap s)) :
    execStart (f s) = mapNext f (execStart s) := by
  obtain ⟨hwidth, hheight, hbsize⟩ := hsize
  unfold execStart
  simp only [hwidth, hheight, hbsize, hbegin, hreject, zeroFill_commutes hpbuf hset, orFault_map, haccept,
    apply_ite (mapNext f), mapNext_orFault]

/-- Only RDREG 5 reads BG (10_state R28, R43). -/
theorem regValue_withBackground (b : BitVec 1) (s : State) {n : BitVec 4} (h : n.toNat ≠ 5) :
    regValue n (withBackground b s) = regValue n s := by
  unfold regValue
  split
  case h_6 hn => exact absurd hn h
  all_goals rfl

theorem exec_withBackground (b : BitVec 1) (s : State) {i : Instr} (h : touchesBackground i = false) :
    exec i (withBackground b s) = mapNext (withBackground b) (exec i s) := by
  cases i with
  | setw _ | seth _ | setth _ | setinv _ => rfl
  | setbs x => exact execSetbs_commutes rfl rfl
  | setbg _ => cases h
  | start =>
    exact execStart_commutes ⟨rfl, rfl, rfl⟩ (fun _ _ => rfl) (fun _ => rfl) (fun _ _ => rfl) (fun _ => rfl) rfl
  | rdreg n =>
    have hn : n.toNat ≠ 5 := by simpa [touchesBackground] using h
    exact execRdreg_commutes (fun _ => rfl) rfl (regValue_withBackground b s hn)
  | nop | pixel _ _ _ | format | txt | rdpb _ | clrerr _ =>
    exact exec_commutes_of_updatesHostSide (withBackground_updatesHostSide b) s rfl

theorem exec_withInputs (ps : List Pins) (s : State) (i : Instr) :
    exec i (withInputs ps s) = mapNext (withInputs ps) (exec i s) := by
  cases i with
  | setw _ | seth _ | setth _ | setinv _ | setbg _ => rfl
  | setbs x => exact execSetbs_commutes rfl rfl
  | start =>
    exact execStart_commutes ⟨rfl, rfl, rfl⟩ (fun _ _ => rfl) (fun _ => rfl) (fun _ _ => rfl) (fun _ => rfl) rfl
  | rdreg n => exact execRdreg_commutes (fun _ => rfl) rfl rfl
  | nop | pixel _ _ _ | format | txt | rdpb _ | clrerr _ =>
    exact exec_commutes_of_updatesHostSide (withInputs_updatesHostSide ps) s rfl

/-! From commands to words and sequences. -/

/-- A word shows nothing of an update that a rejection and its own instruction do not show. -/
theorem runWord_commutes {f : State → State} {w : Word} {s : State}
    (hreject : reject .ill (f s) = mapNext f (reject .ill s))
    (hexec : ∀ i, decode w = some i → exec i (f s) = mapNext f (exec i s)) :
    runWord w (f s) = mapNext f (runWord w s) := by
  cases hd : decode w with
  | none => simp only [runWord_illegal hd, hreject]
  | some i => simp only [runWord_decoded hd, hexec i hd]

theorem runWord_withInputs (ps : List Pins) (w : Word) (s : State) :
    runWord w (withInputs ps s) = mapNext (withInputs ps) (runWord w s) :=
  runWord_commutes rfl fun i _ => exec_withInputs ps s i

/-- A sequence shows nothing of an update that none of its words shows and that leaves the response alone. -/
theorem session_commutes {f : State → State} {ws : List Word}
    (hrsp : ∀ s, (f s).rsp = s.rsp) (htake : ∀ s, { f s with rsp := none } = f { s with rsp := none })
    (hrun : ∀ w ∈ ws, ∀ s, runWord w (f s) = mapNext f (runWord w s)) (s : State) :
    session ws (f s) = mapNext (fun x => (f x.1, x.2)) (session ws s) := by
  induction ws generalizing s with
  | nil => rfl
  | cons w ws ih =>
    obtain ⟨hw, hws⟩ := List.forall_mem_cons.mp hrun
    simp only [session, hw s]
    cases runWord w s with
    | next s1 =>
      simp only [mapNext, htake, hrsp, ih hws]
      cases session ws { s1 with rsp := none } <;> rfl
    | fault e => rfl
    | refused e => rfl

/-- Settles O25: the configuration registers are the host's side, which the commands between two STARTs do not see. -/
theorem conversionIgnoresConfigurationRegisters : Obligations.ConversionIgnoresConfigurationRegisters := by
  intro c ws s h
  refine session_commutes (f := withConfigurationOf c) (fun _ => rfl) (fun _ => rfl) (fun w hw s => ?_) s
  exact runWord_commutes rfl fun i hi =>
    exec_commutes_of_updatesHostSide (withConfigurationOf_updatesHostSide c) s (h w hw i hi)

/-- Settles O26: no word but SETBG's and RDREG 5's shows BG, START and PIXEL among them. -/
theorem backgroundIsNeverObserved : Obligations.BackgroundIsNeverObserved := by
  intro b ws s h
  refine session_commutes (f := withBackground b) (fun _ => rfl) (fun _ => rfl) (fun w hw s => ?_) s
  exact runWord_commutes rfl fun i hi => exec_withBackground b s (h w hw i hi)

end Sys2Proof.Machine
end

section
/-! Reset and the command channel: single edges, and a whole handshake run as its sequence of accepted commands. -/

namespace Sys2Proof.Machine

open Host

/-! One step at each kind of edge with `rst` low. -/

section
variable {s : State} {p : Pins} {rest : List Pins} {r : Word}

theorem step_command (hin : s.inputs = p :: rest) (hrst : p.rst = false) (hvalid : p.cmdValid = true)
    (hrsp : s.rsp = none) : step s = runWord p.cmdData { s with inputs := rest } :=
  (step_input hin).trans (edge_command hrst hvalid hrsp)

theorem step_quiet (hin : s.inputs = p :: rest) (hrst : p.rst = false) (hvalid : p.cmdValid = false)
    (hrsp : s.rsp = none) : step s = .next { s with inputs := rest } :=
  (step_input hin).trans (edge_quiet hrst hvalid hrsp)

theorem step_take (hin : s.inputs = p :: rest) (hrst : p.rst = false) (hrsp : s.rsp = some r)
    (hready : p.rspReady = true) : step s = .next { s with inputs := rest, rsp := none } :=
  (step_input hin).trans (edge_take hrst hrsp hready)

theorem step_hold (hin : s.inputs = p :: rest) (hrst : p.rst = false) (hrsp : s.rsp = some r)
    (hready : p.rspReady = false) : step s = .next { s with inputs := rest } :=
  (step_input hin).trans (edge_hold hrst hrsp hready)

end

theorem reject_ill (s : State) : reject .ill s = .next (rejectedAs 1 s) := rfl

/-- The word placed before the channel runs in the next step, whatever response was outstanding (log 4). -/
theorem step_offerWord (w : Word) (s : State) : step (offerWord w s) = runWord w { s with rsp := none } :=
  step_command (offerWord_inputs w s) rfl rfl rfl

/-- Settles O31: the step is `resetBlock`, each of whose registers is that of the reset state. -/
theorem resetEdgeRestoresTable : Obligations.ResetEdgeRestoresTable := by
  intro s p rest hin hrst
  refine ⟨by simp [cmdReady, hrst], by simp [rspValid, hrst], resetBlock { s with inputs := rest }, ?_, ?_⟩
  · rw [step_input hin, edge_reset hrst]
  · refine ⟨rfl, rfl, rfl, rfl, rfl, rfl, rfl, rfl, rfl, rfl, rfl, rfl, rfl, rfl, rfl, rfl, rfl,
      (by decide : statusView State.reset = 0), (by decide : acfgView State.reset = 0x7F8), ?_⟩
    intro q hq
    simp [cmdReady, rspValid, hq, State.reset]

/-- Settles O32: an idle block accepts the offered word, and so the word that `withFetchWord` places. -/
theorem stepRunsDecodedInstruction : Obligations.StepRunsDecodedInstruction := by
  refine ⟨fun s p rest hin hrst hvalid hrsp => ?_, fun s w i hd => ?_⟩
  · rw [step_command hin hrst hvalid hrsp]
    exact ⟨fun i hd => runWord_decoded hd _, fun hd => (runWord_illegal hd _).trans (reject_ill _)⟩
  · have hw : BitVec.ofNat 32 (w.toNat % 2 ^ 32) = w := by
      rw [Nat.mod_eq_of_lt w.isLt, BitVec.ofNat_toNat, BitVec.setWidth_eq]
    rw [withFetchWord_eq, hw, step_offerWord, runWord_decoded hd]

/-- Settles O33: with a response outstanding the edge can only take or hold it. -/
theorem outstandingResponseIsHeld : Obligations.OutstandingResponseIsHeld := by
  intro s r p rest hrsp hin hrst
  refine ⟨by simp [cmdReady, hrsp], by simp [rspValid, hrst, hrsp], ?_⟩
  cases hready : p.rspReady with
  | true => exact step_take hin hrst hrsp hready
  | false => simp [step_hold hin hrst hrsp hready, hrsp]

/-! The run of a handshake. -/

theorem core_run_succ (n : Nat) {s t : State} (h : step s = .next t) : core.run (n + 1) s = core.run n t := by
  have h' : core.step s = .next t := h
  simp only [Core.run, h']

/-- The response taken at the next edge, if one is. -/
theorem takenResponses_succ_of_take (n : Nat) {s t : State} {r : Word} {p : Pins} {rest : List Pins}
    (hrsp : s.rsp = some r) (hin : s.inputs = p :: rest) (hrst : p.rst = false) (hready : p.rspReady = true)
    (h : step s = .next t) : takenResponses (n + 1) s = r :: takenResponses n t := by
  simp [takenResponses, hrsp, hin, hrst, hready, h]

theorem takenResponses_succ_of_hold (n : Nat) {s t : State} {p : Pins} {rest : List Pins}
    (hin : s.inputs = p :: rest) (hquiet : s.rsp = none ∨ p.rspReady = false)
    (h : step s = .next t) : takenResponses (n + 1) s = takenResponses n t := by
  obtain hrsp | hready := hquiet
  · simp [takenResponses, hrsp, h]
  · cases hrsp : s.rsp <;> simp [takenResponses, hrsp, hin, hready, h]

/-- The run of `s` on its own inputs is the command sequence `ws` from `s` freed of its response: the same last state
but for the channel, and the responses taken are the one outstanding and those of the sequence, all but one that may
still be pending. -/
def RunsAs (ws : List Word) (s : State) : Prop :=
  ∃ (t : State) (rs : List Word) (pending : Option Word),
    session ws { s with rsp := none, inputs := [] } = .next (t, rs) ∧
    core.run s.inputs.length s = .next { t with rsp := pending } ∧
    s.rsp.toList ++ rs = takenResponses s.inputs.length s ++ pending.toList

theorem runsAs_of_no_input {s : State} (hin : s.inputs = []) : RunsAs [] s :=
  ⟨{ s with rsp := none }, [], s.rsp, by rw [← hin]; rfl, congrArg (fun ps => core.run ps.length s) hin,
    by simp [hin, takenResponses]⟩

/-- An edge that leaves the channel as it is. -/
theorem runsAs_of_hold {s : State} {p : Pins} {rest : List Pins} {ws : List Word} (hin : s.inputs = p :: rest)
    (hquiet : s.rsp = none ∨ p.rspReady = false) (hstep : step s = .next { s with inputs := rest })
    (h : RunsAs ws { s with inputs := rest }) : RunsAs ws s := by
  obtain ⟨t, rs, pending, hsession, hrun, htaken⟩ := h
  refine ⟨t, rs, pending, hsession, ?_, ?_⟩
  · rw [hin, List.length_cons, core_run_succ _ hstep, ← hrun]
  · rw [hin, List.length_cons, takenResponses_succ_of_hold _ hin hquiet hstep, ← htaken]

/-- An edge at which the outstanding response is taken. -/
theorem runsAs_of_take {s : State} {r : Word} {p : Pins} {rest : List Pins} {ws : List Word} (hrsp : s.rsp = some r)
    (hin : s.inputs = p :: rest) (hrst : p.rst = false) (hready : p.rspReady = true)
    (hstep : step s = .next { s with inputs := rest, rsp := none })
    (h : RunsAs ws { s with inputs := rest, rsp := none }) : RunsAs ws s := by
  obtain ⟨t, rs, pending, hsession, hrun, htaken⟩ := h
  refine ⟨t, rs, pending, hsession, ?_, ?_⟩
  · rw [hin, List.length_cons, core_run_succ _ hstep, ← hrun]
  · rw [hin, List.length_cons, takenResponses_succ_of_take _ hrsp hin hrst hready hstep, List.cons_append, ← htaken,
      hrsp]
    rfl

/-- An edge at which an idle block accepts a command. -/
theorem runsAs_of_accept {s t : State} {w r : Word} {p : Pins} {rest : List Pins} {ws : List Word}
    (hidle : s.rsp = none) (hin : s.inputs = p :: rest) (hstep : step s = .next t) (hword : runWord w (withInputs rest s) = .next t)
    (hrest : t.inputs = rest) (hresponse : t.rsp = some r) (h : RunsAs ws t) : RunsAs (w :: ws) s := by
  obtain ⟨u, rs, pending, hsession, hrun, htaken⟩ := h
  have hcommand : runWord w { s with rsp := none, inputs := [] } = .next (withInputs [] t) := by
    rw [← hidle]
    exact (runWord_withInputs [] w (withInputs rest s)).trans (by rw [hword]; rfl)
  refine ⟨u, r :: rs, pending, ?_, ?_, ?_⟩
  · exact session_cons_next.mpr ⟨withInputs [] t, rs, hcommand, hsession, by simp [withInputs, hresponse]⟩
  · rw [hin, List.length_cons, core_run_succ _ hstep, ← hrun, hrest]
  · rw [hin, List.length_cons, takenResponses_succ_of_hold _ hin (.inl hidle) hstep, ← hrest, ← htaken, hidle,
      hresponse]
    rfl

theorem runWord_keeps_inputs {w : Word} {s t : State} (h : runWord w s = .next t) : t.inputs = s.inputs := by
  obtain ⟨-, -, -, -, -, -, -, -, -, -, -, -, hinputs⟩ := stateChangesOnlyByNamedCommands w s t h
  exact hinputs

/-- From a state that meets the invariants the handshake runs the accepted words, by induction on what the host drives:
each edge holds, takes or accepts. -/
theorem runsAs_acceptedWords {s : State} (hs : s.Inv) (hrst : ∀ p ∈ s.inputs, p.rst = false) :
    RunsAs (acceptedWords s.rsp.isSome s.inputs) s := by
  generalize hps : s.inputs = ps at hrst ⊢
  induction ps generalizing s with
  | nil => cases hrsp : s.rsp <;> exact runsAs_of_no_input hps
  | cons p rest ih =>
    obtain ⟨hp, hrest⟩ := List.forall_mem_cons.mp hrst
    cases hrsp : s.rsp with
    | some r =>
      cases hready : p.rspReady with
      | true =>
        simp only [acceptedWords, hready, Option.isSome_some, Bool.not_true]
        exact runsAs_of_take hrsp hps hp hready (step_take hps hp hrsp hready)
          (ih (s := { s with inputs := rest, rsp := none }) { hs with } rfl hrest)
      | false =>
        simp only [acceptedWords, hready, Option.isSome_some, Bool.not_false]
        have hnext := ih (s := { s with inputs := rest }) { hs with } rfl hrest
        simp only [hrsp, Option.isSome_some] at hnext
        exact runsAs_of_hold hps (.inr hready) (step_hold hps hp hrsp hready) (by simpa only [hrsp] using hnext)
    | none =>
      cases hvalid : p.cmdValid with
      | true =>
        obtain ⟨t, ht⟩ := runWord_next (s := withInputs rest s) { hs with } p.cmdData
        obtain ⟨r, hr⟩ := runWord_presents ht
        have hinputs : t.inputs = rest := runWord_keeps_inputs ht
        have hinv : t.Inv := runWord_keeps_inv (s := withInputs rest s) { hs with } ht
        have hnext := ih hinv hinputs hrest
        simp only [hr, Option.isSome_some] at hnext
        simp only [acceptedWords, hvalid, Option.isSome_none, if_true]
        exact runsAs_of_accept hrsp hps ((step_command hps hp hvalid hrsp).trans ht) ht hinputs hr hnext
      | false =>
        have hnext := ih (s := { s with inputs := rest }) { hs with } rfl hrest
        simp only [acceptedWords, hvalid, Option.isSome_none, Bool.false_eq_true, if_false]
        simp only [hrsp, Option.isSome_none] at hnext
        exact runsAs_of_hold hps (.inl hrsp) (step_quiet hps hp hvalid hrsp) (by simpa only [hrsp] using hnext)

/-- Settles O34: an idle block's run, with nothing outstanding before it. -/
theorem handshakeRunsCommandsInOrder : Obligations.HandshakeRunsCommandsInOrder := by
  intro s hs hidle hrst
  have h : RunsAs (acceptedWords false s.inputs) s := by
    simpa only [hidle, Option.isSome_none] using runsAs_acceptedWords hs hrst
  obtain ⟨t, rs, pending, hsession, hrun, htaken⟩ := h
  rw [← hidle] at hsession
  exact ⟨t, rs, pending, hsession, hrun, by simpa only [hidle, Option.toList_none, List.nil_append] using htaken⟩

end Sys2Proof.Machine
end

section
/-! The read-only views STATUS and ACFG, bit by bit (10_state R38, R39). -/

namespace Sys2Proof.Machine

open Host

/-- STATUS bit by bit: PHASE, TXTPEND, 0, ERR, zeros. -/
theorem statusView_bit (s : State) (j : Nat) : (statusView s).getLsbD j =
    (decide (j < 32) && if j < 2 then s.phase.code.getLsbD j else if j - 2 < 1 then (txtPending s).getLsbD (j - 2)
      else if j - 2 - 1 < 1 then (0#1).getLsbD (j - 2 - 1) else s.err.getLsbD (j - 2 - 1 - 1)) := by
  simp only [statusView, BitVec.getLsbD_setWidth, BitVec.getLsbD_append]

/-- ACFG bit by bit: A_BS, A_TH, A_INV, zeros. -/
theorem acfgView_bit (s : State) (j : Nat) : (acfgView s).getLsbD j =
    (decide (j < 32) && if j < 4 then s.aBs.getLsbD j else if j - 4 < 8 then s.aTh.getLsbD (j - 4)
      else s.aInv.getLsbD (j - 4 - 8)) := by
  simp only [acfgView, BitVec.getLsbD_setWidth, BitVec.getLsbD_append]

/-- A field of a word is a value when its bits are. -/
theorem extractLsb'_eq_of_bits {w : Word} {start n : Nat} {x : BitVec n}
    (h : ∀ j, j < n → w.getLsbD (start + j) = x.getLsbD j) : w.extractLsb' start n = x := by
  apply BitVec.eq_of_getLsbD_eq
  intro j hj
  rw [BitVec.getLsbD_extractLsb', h j hj]
  simp [hj]

theorem statusView_phase (s : State) : (statusView s).extractLsb' 0 2 = s.phase.code :=
  extractLsb'_eq_of_bits fun j hj => by
    rw [Nat.zero_add, statusView_bit, if_pos hj]
    simp [show j < 32 by omega]

theorem statusView_err (s : State) : (statusView s).extractLsb' 4 5 = s.err :=
  extractLsb'_eq_of_bits fun j hj => by
    rw [statusView_bit, if_neg (by omega), if_neg (by omega), if_neg (by omega), show 4 + j - 2 - 1 - 1 = j by omega]
    simp [show 4 + j < 32 by omega]

theorem statusView_upper (s : State) : (statusView s).extractLsb' 9 23 = 0 :=
  extractLsb'_eq_of_bits fun j hj => by
    rw [statusView_bit, if_neg (by omega), if_neg (by omega), if_neg (by omega), BitVec.getLsbD_of_ge _ _ (by omega)]
    simp

theorem statusView_txtPending (s : State) : (statusView s).getLsbD 2 = true ↔ s.tidx.toNat < s.tlen.toNat := by
  rw [statusView_bit, if_neg (by omega), if_pos (by omega)]
  unfold txtPending
  split
  · next pending => simp [pending]
  · next done => simp [not_lt.mp done]

theorem statusView_bit_three (s : State) : (statusView s).getLsbD 3 = false := by
  rw [statusView_bit, if_neg (by omega), if_neg (by omega), if_pos (by omega)]
  rfl

theorem acfgView_aBs (s : State) : (acfgView s).extractLsb' 0 4 = s.aBs :=
  extractLsb'_eq_of_bits fun j hj => by
    rw [Nat.zero_add, acfgView_bit, if_pos hj]
    simp [show j < 32 by omega]

theorem acfgView_aTh (s : State) : (acfgView s).extractLsb' 4 8 = s.aTh :=
  extractLsb'_eq_of_bits fun j hj => by
    rw [acfgView_bit, if_neg (by omega), if_pos (by omega), Nat.add_sub_cancel_left]
    simp [show 4 + j < 32 by omega]

theorem acfgView_aInv (s : State) : (acfgView s).extractLsb' 12 1 = s.aInv :=
  extractLsb'_eq_of_bits fun j hj => by
    rw [acfgView_bit, if_neg (by omega), if_neg (by omega), show 12 + j - 4 - 8 = j by omega]
    simp [show 12 + j < 32 by omega]

theorem acfgView_upper (s : State) : (acfgView s).extractLsb' 13 19 = 0 :=
  extractLsb'_eq_of_bits fun j hj => by
    rw [acfgView_bit, if_neg (by omega), if_neg (by omega), BitVec.getLsbD_of_ge _ _ (by omega)]
    simp

/-- Settles O20, field by field; the three codes of PHASE are its `Phase.code`. -/
theorem statusBitLayout : Obligations.StatusBitLayout := by
  refine ⟨fun s => ⟨rfl, ?_, ?_, ?_, statusView_txtPending s, statusView_bit_three s, statusView_err s,
    statusView_upper s⟩, by decide⟩
  all_goals
    intro hphase
    rw [statusView_phase, hphase]
    rfl

/-- Settles O21, field by field. -/
theorem activeConfigurationLayout : Obligations.ActiveConfigurationLayout :=
  ⟨fun s => ⟨rfl, acfgView_aBs s, acfgView_aTh s, acfgView_aInv s, acfgView_upper s⟩, by decide⟩

end Sys2Proof.Machine
end

section
/-! The rows of the opcode map in numbers: a row matches the words with its opcode whose lower 28 bits fit its payload
width. From that, that the map is unambiguous, and that encoder and decoder undo each other (30_encoding R80 to R87). -/

namespace Sys2Proof

open Machine

/-! Command words in numbers. -/

theorem toNat_commandWord (op : BitVec 4) {n : Nat} (x : BitVec n) (hn : n ≤ 28) :
    (commandWord op x).toNat = op.toNat * 2 ^ 28 + x.toNat := by
  have hx : x.toNat < 2 ^ 28 := BitVec.toNat_lt_twoPow_of_le hn
  rw [commandWord, BitVec.toNat_append, BitVec.toNat_setWidth_of_le hn, ← Nat.shiftLeft_add_eq_or_of_lt hx,
    Nat.shiftLeft_eq]

/-- A word is a command word by its opcode and its lower 28 bits. -/
theorem commandWord_eq_iff {op : BitVec 4} {n : Nat} {x : BitVec n} {w : Word} (hn : n ≤ 28) :
    commandWord op x = w ↔ w.toNat / 2 ^ 28 = op.toNat ∧ w.toNat % 2 ^ 28 = x.toNat := by
  have hx : x.toNat < 2 ^ 28 := BitVec.toNat_lt_twoPow_of_le hn
  rw [BitVec.toNat_eq, toNat_commandWord op x hn]
  omega

/-- A field inside the payload is read back from the command word. -/
theorem commandWord_field (op : BitVec 4) {n : Nat} (x : BitVec n) {start len : Nat} (h : start + len ≤ 28) :
    (commandWord op x).extractLsb' start len = x.extractLsb' start len := by
  rw [commandWord, BitVec.extractLsb'_append_eq_of_add_le h, BitVec.extractLsb'_setWidth_of_le h]

theorem commandWord_payload (op : BitVec 4) {n : Nat} (x : BitVec n) (hn : n ≤ 28) :
    (commandWord op x).extractLsb' 0 n = x := by
  rw [commandWord_field op x (by omega), BitVec.extractLsb'_eq_self]

/-- The channels of a pixel are the bytes of its payload, red first (30_encoding R82). -/
theorem commandWord_channels (op : BitVec 4) (r g b : BitVec 8) :
    (commandWord op (r ++ g ++ b)).extractLsb' 16 8 = r ∧ (commandWord op (r ++ g ++ b)).extractLsb' 8 8 = g ∧
    (commandWord op (r ++ g ++ b)).extractLsb' 0 8 = b := by
  refine ⟨?_, ?_, ?_⟩
  · rw [commandWord_field _ _ (by decide), BitVec.extractLsb'_append_eq_of_le (by decide),
      BitVec.extractLsb'_append_eq_of_le (by decide), BitVec.extractLsb'_eq_self]
  · rw [commandWord_field _ _ (by decide), BitVec.extractLsb'_append_eq_of_le (by decide),
      BitVec.extractLsb'_append_eq_of_add_le (by decide), BitVec.extractLsb'_eq_self]
  · rw [commandWord_field _ _ (by decide), BitVec.extractLsb'_append_eq_of_add_le (by decide),
      BitVec.extractLsb'_eq_self]

/-- A word with nothing between its opcode and its lower `n` bits is a command word with those bits as payload. -/
theorem commandWord_extractLsb' {op : BitVec 4} {n : Nat} {w : Word} (hn : n ≤ 28)
    (hop : w.toNat / 2 ^ 28 = op.toNat) (hlow : w.toNat % 2 ^ 28 < 2 ^ n) :
    commandWord op (w.extractLsb' 0 n) = w := by
  refine (commandWord_eq_iff hn).mpr ⟨hop, ?_⟩
  rw [BitVec.extractLsb'_toNat, Nat.shiftRight_zero, ← Nat.mod_mod_of_dvd w.toNat (Nat.pow_dvd_pow 2 hn),
    Nat.mod_eq_of_lt hlow]

/-! The rows of the map. -/

/-- The payload width of each opcode (30_encoding R81 to R84), 0 where the row has no payload. -/
def payloadWidth (op : Nat) : Nat := [0, 16, 16, 4, 8, 1, 1, 0, 24, 0, 0, 24, 4, 5].getD op 0

/-- The word has opcode `k`, and its lower 28 bits fit the payload of that opcode. -/
def FitsRow (k : Nat) (w : Word) : Prop := w.toNat / 2 ^ 28 = k ∧ w.toNat % 2 ^ 28 < 2 ^ payloadWidth k

/-- Row `k` stands for opcode `k`: its pattern is the bare opcode, its mask all bits above the payload. -/
theorem opcodeMap_pattern_mask : ∀ k, (h : k < opcodeMap.length) →
    opcodeMap[k].pattern = commandWord (BitVec.ofNat 4 k) (0 : BitVec 28) ∧
    opcodeMap[k].mask = BitVec.allOnes 32 <<< payloadWidth k ∧
    payloadWidth k ≤ 28 ∧ (BitVec.ofNat 4 k).toNat = k := by
  decide

/-- Clearing the payload leaves the bare opcode exactly when nothing stands between the two. -/
theorem clear_payload_eq_iff {op : BitVec 4} {n : Nat} {w : Word} (hn : n ≤ 28) :
    w >>> n <<< n = commandWord op (0 : BitVec 28) ↔ w.toNat / 2 ^ 28 = op.toNat ∧ w.toNat % 2 ^ 28 < 2 ^ n := by
  have hclear : (w >>> n <<< n).toNat = w.toNat - w.toNat % 2 ^ n := by
    have hle : w.toNat / 2 ^ n * 2 ^ n ≤ w.toNat := Nat.div_mul_le_self _ _
    rw [BitVec.toNat_shiftLeft, BitVec.toNat_ushiftRight, Nat.shiftRight_eq_div_pow, Nat.shiftLeft_eq,
      Nat.mod_eq_of_lt (hle.trans_lt w.isLt), Nat.div_mul_self_eq_mod_sub_self]
  have hlow : w.toNat % 2 ^ n = w.toNat % 2 ^ 28 % 2 ^ n := (Nat.mod_mod_of_dvd _ (Nat.pow_dvd_pow 2 hn)).symm
  have hle : w.toNat % 2 ^ 28 % 2 ^ n ≤ w.toNat % 2 ^ 28 := Nat.mod_le _ _
  rw [BitVec.toNat_eq, toNat_commandWord _ _ le_rfl, hclear, hlow, ← Nat.mod_eq_iff_lt (Nat.two_pow_pos n).ne']
  change _ = _ + 0 ↔ _
  omega

theorem matches_iff_fitsRow {k : Nat} {row : OpRow} (hrow : opcodeMap[k]? = some row) (w : Word) :
    row.matches w = true ↔ FitsRow k w := by
  obtain ⟨hk, rfl⟩ := List.getElem?_eq_some_iff.mp hrow
  obtain ⟨hpattern, hmask, hwidth, hop⟩ := opcodeMap_pattern_mask k hk
  rw [OpRow.matches, beq_iff_eq, hpattern, hmask, ← BitVec.shiftLeft_ushiftRight, clear_payload_eq_iff hwidth, hop,
    FitsRow]

/-- Settles O4: the opcode of the word names the one row that can match it. -/
theorem opcodeRowsNeverOverlap : Obligations.OpcodeRowsNeverOverlap := by
  refine List.pairwise_iff_getElem.mpr fun j k hj hk hlt w ⟨hmatchj, hmatchk⟩ => ?_
  obtain ⟨hopj, -⟩ := (matches_iff_fitsRow (List.getElem?_eq_getElem hj) w).mp hmatchj
  obtain ⟨hopk, -⟩ := (matches_iff_fitsRow (List.getElem?_eq_getElem hk) w).mp hmatchk
  omega

/-! The decoder. -/

/-- The row a word fits is the one that reads it. -/
theorem decode_of_fitsRow {k : Nat} {row : OpRow} {w : Word} (hrow : opcodeMap[k]? = some row) (h : FitsRow k w) :
    decode w = some (row.build w) := by
  have hfind : opcodeMap.find? (fun row => row.matches w) = some row := by
    obtain ⟨hk, hget⟩ := List.getElem?_eq_some_iff.mp hrow
    refine List.find?_eq_some_iff_getElem.mpr ⟨(matches_iff_fitsRow hrow w).mpr h, k, hk, hget, fun j hj => ?_⟩
    rw [Bool.not_eq_true', Bool.eq_false_iff, Ne, matches_iff_fitsRow (List.getElem?_eq_getElem (hj.trans hk)) w]
    exact fun hfits => hj.ne (hfits.1.symm.trans h.1)
  simp only [decode, hfind, Option.map_some]

/-- Every word that decodes fits a row, which reads it. -/
theorem fitsRow_of_decode {w : Word} {i : Instr} (h : decode w = some i) :
    ∃ k row, opcodeMap[k]? = some row ∧ FitsRow k w ∧ row.build w = i := by
  obtain ⟨row, hfind, hbuild⟩ := Option.map_eq_some_iff.mp h
  obtain ⟨k, hrow⟩ := List.mem_iff_getElem?.mp (List.mem_of_find?_eq_some hfind)
  have hmatch : row.matches w = true := List.find?_some (p := fun row : OpRow => row.matches w) hfind
  exact ⟨k, row, hrow, (matches_iff_fitsRow hrow w).mp hmatch, hbuild⟩

theorem decode_eq_none_iff {w : Word} : decode w = none ↔ ∀ k < 14, ¬ FitsRow k w := by
  constructor
  · intro h k hk hfits
    rw [decode_of_fitsRow (List.getElem?_eq_getElem (l := opcodeMap) hk) hfits] at h
    exact Option.some_ne_none _ h
  · intro h
    refine Option.eq_none_iff_forall_ne_some.mpr fun i hi => ?_
    obtain ⟨k, row, hrow, hfits, -⟩ := fitsRow_of_decode hi
    exact h k (List.getElem?_eq_some_iff.mp hrow).1 hfits

/-! Both round trips. -/

theorem decode_commandWord {k n : Nat} {row : OpRow} (hrow : opcodeMap[k]? = some row) (x : BitVec n) (hn : n ≤ 28)
    (hx : x.toNat < 2 ^ payloadWidth k) :
    decode (commandWord (BitVec.ofNat 4 k) x) = some (row.build (commandWord (BitVec.ofNat 4 k) x)) := by
  obtain ⟨hop, hpayload⟩ := (commandWord_eq_iff (op := BitVec.ofNat 4 k) (x := x) hn).mp rfl
  obtain ⟨-, -, -, hk⟩ := opcodeMap_pattern_mask k (List.getElem?_eq_some_iff.mp hrow).1
  exact decode_of_fitsRow hrow ⟨hop.trans hk, hpayload.trans_lt hx⟩

/-- A row whose command has its whole payload as operand reads that operand. -/
theorem decode_commandWord_operand {k n : Nat} {pattern mask : Word} {ctor : BitVec n → Instr}
    (hrow : opcodeMap[k]? = some ⟨pattern, mask, fun w => ctor (w.extractLsb' 0 n)⟩) (hn : n ≤ 28)
    (hwidth : payloadWidth k = n) (x : BitVec n) : decode (commandWord (BitVec.ofNat 4 k) x) = some (ctor x) := by
  have hdecode := decode_commandWord hrow x hn (hwidth ▸ x.isLt)
  exact hdecode.trans (congrArg (fun y => some (ctor y)) (commandWord_payload _ x hn))

/-- Settles O1: each instruction's word fits the instruction's row, which reads each operand from its field. -/
theorem decodeEncodeRoundTrip : Obligations.DecodeEncodeRoundTrip := by
  intro i
  cases i with
  | nop => exact decode_commandWord (k := 0) rfl (0 : BitVec 28) le_rfl (by decide)
  | setw x => exact decode_commandWord_operand (k := 1) rfl (by decide) rfl x
  | seth x => exact decode_commandWord_operand (k := 2) rfl (by decide) rfl x
  | setbs x => exact decode_commandWord_operand (k := 3) rfl (by decide) rfl x
  | setth x => exact decode_commandWord_operand (k := 4) rfl (by decide) rfl x
  | setinv x => exact decode_commandWord_operand (k := 5) rfl (by decide) rfl x
  | setbg x => exact decode_commandWord_operand (k := 6) rfl (by decide) rfl x
  | start => exact decode_commandWord (k := 7) rfl (0 : BitVec 28) le_rfl (by decide)
  | pixel r g b =>
    obtain ⟨hr, hg, hb⟩ := commandWord_channels (BitVec.ofNat 4 8) r g b
    have hdecode := decode_commandWord (k := 8) rfl (r ++ g ++ b) (by decide) (r ++ g ++ b).isLt
    exact hdecode.trans (by simp only [hr, hg, hb])
  | format => exact decode_commandWord (k := 9) rfl (0 : BitVec 28) le_rfl (by decide)
  | txt => exact decode_commandWord (k := 10) rfl (0 : BitVec 28) le_rfl (by decide)
  | rdpb x => exact decode_commandWord_operand (k := 11) rfl (by decide) rfl x
  | rdreg x => exact decode_commandWord_operand (k := 12) rfl (by decide) rfl x
  | clrerr x => exact decode_commandWord_operand (k := 13) rfl (by decide) rfl x

theorem FitsRow.commandWord_zero {k : Nat} {w : Word} {op : BitVec 4} (h : FitsRow k w) (hop : op.toNat = k)
    (hwidth : payloadWidth k = 0) : commandWord op (0 : BitVec 28) = w := by
  obtain ⟨hk, hlow⟩ := h
  rw [hwidth] at hlow
  exact (commandWord_eq_iff le_rfl).mpr ⟨hk.trans hop.symm, Nat.lt_one_iff.mp hlow⟩

theorem FitsRow.commandWord_operand {k n : Nat} {w : Word} {op : BitVec 4} (h : FitsRow k w) (hop : op.toNat = k)
    (hn : n ≤ 28) (hwidth : payloadWidth k = n) : commandWord op (w.extractLsb' 0 n) = w := by
  obtain ⟨hk, hlow⟩ := h
  exact commandWord_extractLsb' hn (hk.trans hop.symm) (hwidth ▸ hlow)

/-- What a row reads from a word that fits it is encoded as that word. -/
theorem encode_build {k : Nat} {row : OpRow} {w : Word} (hrow : opcodeMap[k]? = some row) (h : FitsRow k w) :
    encode (row.build w) = w := by
  match k, hrow with
  | 0, rfl => exact h.commandWord_zero rfl rfl
  | 1, rfl => exact h.commandWord_operand rfl (by decide) rfl
  | 2, rfl => exact h.commandWord_operand rfl (by decide) rfl
  | 3, rfl => exact h.commandWord_operand rfl (by decide) rfl
  | 4, rfl => exact h.commandWord_operand rfl (by decide) rfl
  | 5, rfl => exact h.commandWord_operand rfl (by decide) rfl
  | 6, rfl => exact h.commandWord_operand rfl (by decide) rfl
  | 7, rfl => exact h.commandWord_zero rfl rfl
  | 8, rfl =>
    have hpayload : w.extractLsb' 16 8 ++ w.extractLsb' 8 8 ++ w.extractLsb' 0 8 = w.extractLsb' 0 24 := by
      rw [BitVec.extractLsb'_append_extractLsb'_eq_extractLsb' (by decide : 16 = 8 + 8),
        BitVec.extractLsb'_append_extractLsb'_eq_extractLsb' (by decide : 8 = 0 + 8)]
    exact (congrArg (commandWord 0x8) hpayload).trans (h.commandWord_operand rfl (by decide) rfl)
  | 9, rfl => exact h.commandWord_zero rfl rfl
  | 10, rfl => exact h.commandWord_zero rfl rfl
  | 11, rfl => exact h.commandWord_operand rfl (by decide) rfl
  | 12, rfl => exact h.commandWord_operand rfl (by decide) rfl
  | 13, rfl => exact h.commandWord_operand rfl (by decide) rfl

/-- Settles O2: the word fits the row that reads it. -/
theorem encodeDecodeRoundTrip : Obligations.EncodeDecodeRoundTrip := by
  intro w i h
  obtain ⟨k, row, hrow, hfits, rfl⟩ := fitsRow_of_decode h
  exact encode_build hrow hfits

/-- Settles O5: NOP is encoded as 0, and both round trips. -/
theorem onlyZeroWordIsNop : Obligations.OnlyZeroWordIsNop := by
  intro w
  constructor
  · intro h
    exact (encodeDecodeRoundTrip w .nop h).symm
  · rintro rfl
    exact decodeEncodeRoundTrip .nop

/-- Settles O3: a word is ILLEGAL when it fits no row, that is when its opcode has none or a bit above its payload is
1; and ILLEGAL words are rejected with ILL. -/
theorem illegalWordsAreRejected : Obligations.IllegalWordsAreRejected := by
  intro w
  refine ⟨?_, fun h s => (runWord_illegal h s).trans (reject_ill s)⟩
  change decode w = none ↔ 14 ≤ w.toNat / 2 ^ 28 ∨ 2 ^ payloadWidth (w.toNat / 2 ^ 28) ≤ w.toNat % 2 ^ 28
  rw [decode_eq_none_iff]
  constructor
  · intro h
    by_contra hfits
    obtain ⟨hop, hlow⟩ := not_or.mp hfits
    exact h _ (not_le.mp hop) ⟨rfl, not_le.mp hlow⟩
  · rintro h k hk ⟨rfl, hlow⟩
    exact h.elim (not_le.mpr hk) (not_le.mpr hlow)

end Sys2Proof
end

section
/-! The assembler: a line gives the words of its commands exactly when its operands are in range, and those words are
the table's and decode to the line's commands (30_encoding R89, R90). -/

namespace Sys2Proof

theorem assemble_of_wf {line : AsmLine} (h : line.wf = true) : line.assemble = some (line.expand.map encode) :=
  if_pos h

theorem assemble_of_not_wf {line : AsmLine} (h : ¬ line.wf = true) : line.assemble = none := if_neg h

theorem wf_of_assemble {line : AsmLine} {ws : List Word} (h : line.assemble = some ws) : line.wf = true := by
  by_contra hwf
  rw [assemble_of_not_wf hwf] at h
  exact Option.some_ne_none ws h.symm

theorem pixel_wf_iff {r g b : Nat} : (AsmLine.pixel r g b).wf = true ↔ r ≤ 255 ∧ g ≤ 255 ∧ b ≤ 255 := by
  simp [AsmLine.wf, and_assoc]

theorem pixa_wf_iff {r g b a : Nat} :
    (AsmLine.pixa r g b a).wf = true ↔ (AsmLine.pixel r g b).wf = true ∧ a ≤ 255 := by
  simp [AsmLine.wf]

theorem config_wf_iff {w h bs t inv bg : Nat} : (AsmLine.config w h bs t inv bg).wf = true ↔
    (AsmLine.setw w).wf = true ∧ (AsmLine.seth h).wf = true ∧ (AsmLine.setbs bs).wf = true ∧
    (AsmLine.setth t).wf = true ∧ (AsmLine.setinv inv).wf = true ∧ (AsmLine.setbg bg).wf = true := by
  simp [AsmLine.wf, and_assoc]

/-! The pseudo-instructions. -/

theorem assemble_pixa {r g b a : Nat} (ha : a ≤ 255) :
    (AsmLine.pixa r g b a).assemble = (AsmLine.pixel r g b).assemble := by
  have hwf : (AsmLine.pixa r g b a).wf = true ↔ (AsmLine.pixel r g b).wf = true :=
    pixa_wf_iff.trans (and_iff_left ha)
  by_cases h : (AsmLine.pixel r g b).wf = true
  · exact (assemble_of_wf (hwf.mpr h)).trans (assemble_of_wf h).symm
  · exact (assemble_of_not_wf (mt hwf.mp h)).trans (assemble_of_not_wf h).symm

/-- Settles O9: CONFIG has words exactly when its six SET lines have. -/
theorem pseudoInstructionsExpand : Obligations.PseudoInstructionsExpand := by
  refine ⟨fun r g b a ha => assemble_pixa ha, rfl, rfl, fun w h bs t inv bg => ?_⟩
  by_cases hconfig : (AsmLine.config w h bs t inv bg).wf = true
  · obtain ⟨hw, hh, hbs, ht, hinv, hbg⟩ := config_wf_iff.mp hconfig
    rw [assemble_of_wf hconfig, assemble_of_wf hw, assemble_of_wf hh, assemble_of_wf hbs, assemble_of_wf ht,
      assemble_of_wf hinv, assemble_of_wf hbg]
    rfl
  · rw [assemble_of_not_wf hconfig]
    refine (Option.eq_none_iff_forall_ne_some.mpr fun ws hws => hconfig ?_).symm
    obtain ⟨_, hw, hws⟩ := Option.bind_eq_some_iff.mp hws
    obtain ⟨_, hh, hws⟩ := Option.bind_eq_some_iff.mp hws
    obtain ⟨_, hbs, hws⟩ := Option.bind_eq_some_iff.mp hws
    obtain ⟨_, ht, hws⟩ := Option.bind_eq_some_iff.mp hws
    obtain ⟨_, hinv, hws⟩ := Option.bind_eq_some_iff.mp hws
    obtain ⟨_, hbg, -⟩ := Option.bind_eq_some_iff.mp hws
    exact config_wf_iff.mpr ⟨wf_of_assemble hw, wf_of_assemble hh, wf_of_assemble hbs, wf_of_assemble ht,
      wf_of_assemble hinv, wf_of_assemble hbg⟩

/-! The words of the table. -/

theorem commandWord_eq_or (op : BitVec 4) {n : Nat} (x : BitVec n) (hn : n ≤ 28) :
    commandWord op x = op.setWidth 32 <<< 28 ||| x.setWidth 32 := by
  have hpayload : (x.setWidth 28).setWidth 32 = x.setWidth 32 := by
    apply BitVec.eq_of_toNat_eq
    rw [BitVec.toNat_setWidth_of_le (by decide), BitVec.toNat_setWidth_of_le hn, BitVec.toNat_setWidth_of_le (by omega)]
  rw [← hpayload]
  exact (BitVec.setWidth_eq _).symm.trans BitVec.setWidth_append_eq_shiftLeft_setWidth_or

theorem commandWord_ofNat (op : BitVec 4) {n x : Nat} (hn : n ≤ 28) (hx : x < 2 ^ n) :
    commandWord op (BitVec.ofNat n x) = op.setWidth 32 <<< 28 ||| BitVec.ofNat 32 x := by
  rw [commandWord_eq_or op _ hn, BitVec.setWidth_ofNat_of_le_of_lt (by omega) hx]

/-- A line of one operand assembles to its opcode word with the operand in the lowest bits. -/
theorem assemble_operand {line : AsmLine} {op : BitVec 4} {n x : Nat} (hwf : line.wf = true) (hn : n ≤ 28)
    (hx : x < 2 ^ n) (hwords : line.expand.map encode = [commandWord op (BitVec.ofNat n x)]) :
    line.assemble = some [op.setWidth 32 <<< 28 ||| BitVec.ofNat 32 x] := by
  rw [assemble_of_wf hwf, hwords, commandWord_ofNat op hn hx]

theorem assemble_pixel {r g b : Nat} (hr : r ≤ 255) (hg : g ≤ 255) (hb : b ≤ 255) :
    (AsmLine.pixel r g b).assemble =
      some [0x80000000 ||| BitVec.ofNat 32 r <<< 16 ||| BitVec.ofNat 32 g <<< 8 ||| BitVec.ofNat 32 b] := by
  have hchannel (x : Nat) (hx : x ≤ 255) : (BitVec.ofNat 8 x).setWidth 32 = BitVec.ofNat 32 x :=
    BitVec.setWidth_ofNat_of_le_of_lt (by decide) (Nat.lt_succ_of_le hx)
  have hword : encode (.pixel (BitVec.ofNat 8 r) (BitVec.ofNat 8 g) (BitVec.ofNat 8 b)) =
      0x80000000 ||| BitVec.ofNat 32 r <<< 16 ||| BitVec.ofNat 32 g <<< 8 ||| BitVec.ofNat 32 b := by
    rw [encode, commandWord_eq_or _ _ (by decide), BitVec.setWidth_append_append_eq_shiftLeft_setWidth_or,
      hchannel r hr, hchannel g hg, hchannel b hb, ← BitVec.or_assoc, ← BitVec.or_assoc]
    rfl
  rw [assemble_of_wf (pixel_wf_iff.mpr ⟨hr, hg, hb⟩), ← hword]
  rfl

/-- Settles O8: each word is the opcode word OR the operands at their places. -/
theorem assemblyTableWords : Obligations.AssemblyTableWords := by
  refine ⟨rfl, fun w hw => ?_, fun h hh => ?_, fun bs hbs => ?_, fun t ht => ?_, fun b hb => ?_, fun b hb => ?_, rfl,
    fun r g b => assemble_pixel, rfl, rfl, fun idx hidx => ?_, fun n hn => ?_, fun mask hmask => ?_⟩
  · exact assemble_operand (op := 1) (decide_eq_true hw) (by decide) (Nat.lt_succ_of_le hw) rfl
  · exact assemble_operand (op := 2) (decide_eq_true hh) (by decide) (Nat.lt_succ_of_le hh) rfl
  · exact assemble_operand (op := 3) (decide_eq_true hbs) (by decide) (Nat.lt_succ_of_le hbs) rfl
  · exact assemble_operand (op := 4) (decide_eq_true ht) (by decide) (Nat.lt_succ_of_le ht) rfl
  · exact assemble_operand (op := 5) (decide_eq_true hb) (by decide) (Nat.lt_succ_of_le hb) rfl
  · exact assemble_operand (op := 6) (decide_eq_true hb) (by decide) (Nat.lt_succ_of_le hb) rfl
  · exact assemble_operand (op := 11) (decide_eq_true hidx) (by decide) hidx rfl
  · exact assemble_operand (op := 12) (decide_eq_true hn) (by decide) (Nat.lt_succ_of_le hn) rfl
  · exact assemble_operand (op := 13) (decide_eq_true hmask) (by decide) (Nat.lt_succ_of_le hmask) rfl

/-! What the words decode to. -/

/-- The words of a well-formed line decode to its commands, in order. -/
theorem decode_assemble {line : AsmLine} (h : line.wf = true) :
    (line.assemble.map fun ws => ws.map decode) = some (line.expand.map some) := by
  rw [assemble_of_wf h, Option.map_some, List.map_map]
  exact congrArg some (List.map_congr_left fun i _ => decodeEncodeRoundTrip i)

theorem toNat_ofNat_of_le {n max x : Nat} (hmax : max < 2 ^ n) (h : x ≤ max) : (BitVec.ofNat n x).toNat = x := by
  rw [BitVec.toNat_ofNat, Nat.mod_eq_of_lt (h.trans_lt hmax)]

/-- A line of one operand decodes to its command with exactly that operand, or gives no word. -/
theorem decode_assemble_operand {n max x : Nat} {line : AsmLine} {ctor : BitVec n → Instr} (hmax : max < 2 ^ n)
    (hwf : line.wf = true ↔ x ≤ max) (hexpand : line.expand = [ctor (BitVec.ofNat n x)]) :
    (x ≤ max → ∃ v : BitVec n, v.toNat = x ∧
      (line.assemble.map fun ws => ws.map decode) = some [some (ctor v)]) ∧
    (max < x → line.assemble = none) := by
  refine ⟨fun h => ⟨BitVec.ofNat n x, toNat_ofNat_of_le hmax h, ?_⟩, fun h => assemble_of_not_wf ?_⟩
  · rw [decode_assemble (hwf.mpr h), hexpand]
    rfl
  · exact mt hwf.mp (not_le.mpr h)

/-- Settles O7: inside the ranges by the round trip, outside them because the line is not well-formed. -/
theorem assembledLinesDecode : Obligations.AssembledLinesDecode := by
  refine ⟨decode_assemble rfl, decode_assemble rfl, decode_assemble rfl, decode_assemble rfl, decode_assemble rfl,
    decode_assemble rfl, fun w => ?_, fun h => ?_, fun bs => ?_, fun t => ?_, fun b => ?_, fun b => ?_,
    fun r g b => ⟨fun hr hg hb => ?_, fun hout => ?_⟩, fun idx => ?_, fun n => ?_, fun mask => ?_,
    fun r g b a => ⟨fun hr hg hb ha => ?_, fun hout => ?_⟩,
    fun w h bs t inv bg => ⟨fun hw hh hbs ht hinv hbg => ?_, fun hout => ?_⟩⟩
  · exact decode_assemble_operand (by decide) decide_eq_true_iff rfl
  · exact decode_assemble_operand (by decide) decide_eq_true_iff rfl
  · exact decode_assemble_operand (by decide) decide_eq_true_iff rfl
  · exact decode_assemble_operand (by decide) decide_eq_true_iff rfl
  · exact decode_assemble_operand (by decide) decide_eq_true_iff rfl
  · exact decode_assemble_operand (by decide) decide_eq_true_iff rfl
  · exact ⟨_, _, _, toNat_ofNat_of_le (by decide) hr, toNat_ofNat_of_le (by decide) hg,
      toNat_ofNat_of_le (by decide) hb, decode_assemble (pixel_wf_iff.mpr ⟨hr, hg, hb⟩)⟩
  · exact assemble_of_not_wf (mt pixel_wf_iff.mp (by omega))
  · exact decode_assemble_operand (by decide) (decide_eq_true_iff.trans Nat.lt_succ_iff) rfl
  · exact decode_assemble_operand (by decide) decide_eq_true_iff rfl
  · exact decode_assemble_operand (by decide) decide_eq_true_iff rfl
  · exact ⟨_, _, _, toNat_ofNat_of_le (by decide) hr, toNat_ofNat_of_le (by decide) hg,
      toNat_ofNat_of_le (by decide) hb, decode_assemble (pixa_wf_iff.mpr ⟨pixel_wf_iff.mpr ⟨hr, hg, hb⟩, ha⟩)⟩
  · refine assemble_of_not_wf fun hwf => ?_
    obtain ⟨hpixel, ha⟩ := pixa_wf_iff.mp hwf
    obtain ⟨hr, hg, hb⟩ := pixel_wf_iff.mp hpixel
    omega
  · exact ⟨_, _, _, _, _, _, toNat_ofNat_of_le (by decide) hw, toNat_ofNat_of_le (by decide) hh,
      toNat_ofNat_of_le (by decide) hbs, toNat_ofNat_of_le (by decide) ht, toNat_ofNat_of_le (by decide) hinv,
      toNat_ofNat_of_le (by decide) hbg, decode_assemble (config_wf_iff.mpr ⟨decide_eq_true hw, decide_eq_true hh,
        decide_eq_true hbs, decide_eq_true ht, decide_eq_true hinv, decide_eq_true hbg⟩)⟩
  · refine assemble_of_not_wf fun hwf => ?_
    obtain ⟨hw, hh, hbs, ht, hinv, hbg⟩ := config_wf_iff.mp hwf
    simp only [AsmLine.wf, decide_eq_true_eq] at hw hh hbs ht hinv hbg
    omega

end Sys2Proof
end

section
/-! Command sequences: a sequence from a state that meets the invariants completes and keeps them, and a sequence of two
parts is the second run after the first (10_state R21, 30_encoding R88). -/

namespace Sys2Proof.Machine

open Host

theorem session_append_next {xs ys : List Word} {s t : State} {rs : List Word} :
    session (xs ++ ys) s = .next (t, rs) ↔
      ∃ u rs1 rs2, session xs s = .next (u, rs1) ∧ session ys u = .next (t, rs2) ∧ rs = rs1 ++ rs2 := by
  induction xs generalizing s rs with
  | nil => simp
  | cons w xs ih =>
    rw [List.cons_append, session_cons_next]
    constructor
    · rintro ⟨s1, rs', hword, hrest, rfl⟩
      obtain ⟨u, rs1, rs2, hxs, hys, rfl⟩ := ih.mp hrest
      exact ⟨u, s1.rsp.getD 0 :: rs1, rs2, session_cons_next.mpr ⟨s1, rs1, hword, hxs, rfl⟩, hys, rfl⟩
    · rintro ⟨u, rs', rs2, hcons, hys, rfl⟩
      obtain ⟨s1, rs1, hword, hxs, rfl⟩ := session_cons_next.mp hcons
      exact ⟨s1, rs1 ++ rs2, hword, ih.mpr ⟨u, rs1, rs2, hxs, hys, rfl⟩, rfl⟩

theorem session_length {ws : List Word} {s t : State} {rs : List Word} (h : session ws s = .next (t, rs)) :
    rs.length = ws.length := by
  induction ws generalizing s rs with
  | nil => cases h; rfl
  | cons w ws ih =>
    obtain ⟨s1, rs', -, hrest, rfl⟩ := session_cons_next.mp h
    rw [List.length_cons, List.length_cons, ih hrest]

theorem session_next {s : State} (hs : s.Inv) (ws : List Word) :
    ∃ t rs, session ws s = .next (t, rs) ∧ t.Inv := by
  induction ws generalizing s with
  | nil => exact ⟨s, [], rfl, hs⟩
  | cons w ws ih =>
    obtain ⟨s1, hword⟩ := runWord_next hs w
    have hs1 : ({ s1 with rsp := none } : State).Inv := { runWord_keeps_inv hs hword with }
    obtain ⟨t, rs, hrest, ht⟩ := ih hs1
    exact ⟨t, s1.rsp.getD 0 :: rs, session_cons_next.mpr ⟨s1, rs, hword, hrest, rfl⟩, ht⟩

/-- Settles O35: the sequence is cut before the command in question. -/
theorem sessionsAnswerEveryCommand : Obligations.SessionsAnswerEveryCommand := by
  refine ⟨fun w s hs => ?_, fun ws s hs => ?_⟩
  · obtain ⟨t, ht⟩ := runWord_next hs w
    obtain ⟨r, hr⟩ := runWord_presents ht
    exact ⟨t, r, ht, hr, runWord_keeps_inv hs ht⟩
  · obtain ⟨t, rs, hsession, ht⟩ := session_next hs ws
    refine ⟨t, rs, hsession, session_length hsession, ht, ?_⟩
    rintro before w after rfl
    obtain ⟨u, rs1, rs', hbefore, hafter, rfl⟩ := session_append_next.mp hsession
    obtain ⟨v, rs2, hword, -, rfl⟩ := session_cons_next.mp hafter
    obtain ⟨r, hr⟩ := runWord_presents hword
    exact ⟨u, v, r, rs1, rs2, hbefore, session_length hbefore, hword, hr, by rw [hr]; rfl⟩

end Sys2Proof.Machine
end

section
/-! Command words by their opcode: a word of a row's opcode runs the row's command, or is rejected with ILL when a
reserved bit is 1 (30_encoding R85, R86). From that, the words of NOP and of the SET commands (40_config). -/

namespace Sys2Proof.Machine

open Host

/-! The word clauses of a row. -/

theorem toNat_div_of_opcode {w : Word} {op : BitVec 4} (hop : w.extractLsb' 28 4 = op) :
    w.toNat / 2 ^ 28 = op.toNat := by
  rw [← hop, BitVec.extractLsb'_toNat, Nat.shiftRight_eq_div_pow]
  omega

/-- The bits between the payload and the opcode are 0 exactly when the lower 28 bits fit the payload. -/
theorem reserved_eq_zero_iff {n r : Nat} (hsum : n + r = 28) (w : Word) :
    w.extractLsb' n r = 0 ↔ w.toNat % 2 ^ 28 < 2 ^ n := by
  have hreserved : (w.extractLsb' n r).toNat = w.toNat % 2 ^ 28 / 2 ^ n := by
    rw [BitVec.extractLsb'_toNat, Nat.shiftRight_eq_div_pow, ← hsum, Nat.pow_add, Nat.mod_mul_right_div_self]
  rw [BitVec.toNat_eq, hreserved]
  exact Nat.div_eq_zero_iff_lt (Nat.two_pow_pos n)

/-- A word of opcode `k` that does not fit row `k` fits no row. -/
theorem decode_of_not_fitsRow {k : Nat} {w : Word} (hk : w.toNat / 2 ^ 28 = k) (h : ¬ FitsRow k w) :
    decode w = none := by
  refine decode_eq_none_iff.mpr fun j _ hfits => h ?_
  have hjk : j = k := hfits.1.symm.trans hk
  exact hjk ▸ hfits

section
variable {k : Nat} {row : OpRow} {w : Word}

theorem toNat_div_of_row (hrow : opcodeMap[k]? = some row) (hop : w.extractLsb' 28 4 = BitVec.ofNat 4 k) :
    w.toNat / 2 ^ 28 = k := by
  obtain ⟨-, -, -, hk⟩ := opcodeMap_pattern_mask k (List.getElem?_eq_some_iff.mp hrow).1
  exact (toNat_div_of_opcode hop).trans hk

/-- Every word of an assigned opcode runs its row's command or is ILL (30_encoding R85, R86). -/
theorem runWord_of_opcode (hrow : opcodeMap[k]? = some row) (hop : w.extractLsb' 28 4 = BitVec.ofNat 4 k) (s : State) :
    (FitsRow k w → runWord w s = exec (row.build w) s) ∧ (¬ FitsRow k w → runWord w s = .next (rejectedAs 1 s)) := by
  refine ⟨fun hfits => runWord_decoded (decode_of_fitsRow hrow hfits) s, fun hfits => ?_⟩
  rw [runWord_illegal (decode_of_not_fitsRow (toNat_div_of_row hrow hop) hfits), reject_ill]

/-- A row with `r` reserved bits above its payload. -/
theorem runWord_reserved (hrow : opcodeMap[k]? = some row) {r : Nat} (hsum : payloadWidth k + r = 28)
    (hop : w.extractLsb' 28 4 = BitVec.ofNat 4 k) (s : State) :
    runWord w s = if w.extractLsb' (payloadWidth k) r ≠ 0 then .next (rejectedAs 1 s) else exec (row.build w) s := by
  have hfits : FitsRow k w ↔ w.extractLsb' (payloadWidth k) r = 0 := by
    rw [FitsRow, reserved_eq_zero_iff hsum, and_iff_right (toNat_div_of_row hrow hop)]
  obtain ⟨hrun, hreject⟩ := runWord_of_opcode hrow hop s
  split
  next hbit => exact hreject (mt hfits.mp hbit)
  next hzero => exact hrun (hfits.mpr (not_not.mp hzero))

/-- A row without payload has one word, the bare opcode. -/
theorem runWord_bare (hrow : opcodeMap[k]? = some row) (hwidth : payloadWidth k = 0)
    (hop : w.extractLsb' 28 4 = BitVec.ofNat 4 k) (s : State) :
    runWord w s = if w = row.pattern then exec (row.build w) s else .next (rejectedAs 1 s) := by
  have hfits : FitsRow k w ↔ w = row.pattern := by
    obtain ⟨hk, rfl⟩ := List.getElem?_eq_some_iff.mp hrow
    obtain ⟨hpattern, -, -, hopNat⟩ := opcodeMap_pattern_mask k hk
    rw [FitsRow, hwidth, pow_zero, Nat.lt_one_iff, hpattern, eq_comm (a := w), commandWord_eq_iff le_rfl, hopNat]
    rfl
  obtain ⟨hrun, hreject⟩ := runWord_of_opcode hrow hop s
  split
  next hword => exact hrun (hfits.mpr hword)
  next hword => exact hreject (mt hfits.mp hword)

end

/-! The statements of 40_config. -/

/-- Settles O10: NOP answers 0, and its row has no payload. -/
theorem nopChangesNothing : Obligations.NopChangesNothing :=
  fun s => ⟨rfl, fun _ hop => runWord_bare (k := 0) rfl rfl hop s⟩

/-- Settles O11: each command accepts with one register updated, and its row reads the register's field. -/
theorem configurationWritesOneRegister : Obligations.ConfigurationWritesOneRegister := by
  intro s
  refine ⟨fun _ => rfl, fun _ => rfl, fun _ => rfl, fun _ => rfl, fun _ => rfl, fun w => ⟨?setw, ?seth, ?setth, ?setinv,
    ?setbg⟩⟩
  case setw => exact fun hop => runWord_reserved (k := 1) rfl rfl hop s
  case seth => exact fun hop => runWord_reserved (k := 2) rfl rfl hop s
  case setth => exact fun hop => runWord_reserved (k := 4) rfl rfl hop s
  case setinv => exact fun hop => runWord_reserved (k := 5) rfl rfl hop s
  case setbg => exact fun hop => runWord_reserved (k := 6) rfl rfl hop s

theorem legalBlockSize_iff (bs : BitVec 4) : legalBlockSize bs = true ↔ bs = 2 ∨ bs = 4 ∨ bs = 8 :=
  ⟨legalBlockSize_cases, by rintro (rfl | rfl | rfl) <;> decide⟩

/-- SETBS by its value (40_config R103). -/
theorem execSetbs_eq (bs : BitVec 4) (s : State) : execSetbs bs s =
    if bs ≠ 2 ∧ bs ≠ 4 ∧ bs ≠ 8 then .next (rejectedAs 2 s) else .next { s with bsize := bs, rsp := some 0 } := by
  have hillegal : (bs ≠ 2 ∧ bs ≠ 4 ∧ bs ≠ 8) ↔ ¬ legalBlockSize bs = true := by
    rw [legalBlockSize_iff, not_or, not_or]
  rw [execSetbs]
  split
  next hlegal => exact (if_neg (mt hillegal.mp (not_not.mpr hlegal))).symm
  next hvalue => exact (if_pos (hillegal.mpr hvalue)).symm

/-- Settles O12: the value is checked by the command, the reserved bits by the decoder. -/
theorem setBlockSizeChecksItsValue : Obligations.SetBlockSizeChecksItsValue :=
  fun s => ⟨fun bs => execSetbs_eq bs s, fun _ hop => runWord_reserved (k := 3) rfl rfl hop s⟩

end Sys2Proof.Machine
end

section
/-! The encoder as functions: the luminance and the decision in exact numbers, the placement of pixels in bytes, and the
packed buffer bit by bit (41_encoder R120 to R129, R133). -/

namespace Sys2Proof.Machine

/-! The luminance and the decision. -/

/-- The four-place decimal weights, scaled by 10000 (41_encoder R120). -/
theorem scaledLuminance_cast (r g b : Byte) : (scaledLuminance r g b : ℚ) = 10000 * luminance r g b := by
  simp only [scaledLuminance, luminance]
  push_cast
  ring

/-- The weights sum to 10000, and a channel is at most 255. -/
theorem scaledLuminance_le (r g b : Byte) : scaledLuminance r g b ≤ 2550000 := by
  have hr := r.isLt
  have hg := g.isLt
  have hb := b.isLt
  unfold scaledLuminance
  omega

theorem luminance_gray (x : Byte) : luminance x x x = x.toNat := by
  unfold luminance
  ring

/-- Settles O36: the weights scaled, summed, and taken three times on one channel value. -/
theorem scaledLuminanceIsExact : Obligations.ScaledLuminanceIsExact := by
  refine ⟨fun r g b => ⟨?_, scaledLuminance_le r g b, (scaledLuminance_le r g b).trans_lt (by decide)⟩, luminance_gray⟩
  rw [scaledLuminance_cast, mul_div_cancel_left₀ _ (by decide)]
  rfl

/-- Comparing 10000 times the luminance with 10000 times the threshold compares the two. -/
theorem lt_luminance_iff (r g b : Byte) (t : BitVec 8) :
    (t.toNat : ℚ) < luminance r g b ↔ 10000 * t.toNat < scaledLuminance r g b := by
  rw [← Nat.cast_lt (α := ℚ), scaledLuminance_cast, Nat.cast_mul]
  exact (mul_lt_mul_iff_right₀ (by decide : (0 : ℚ) < 10000)).symm

theorem thresholdBit_eq_one_iff (w : Nat) (t : BitVec 8) : thresholdBit w t = 1 ↔ 10000 * t.toNat < w := by
  unfold thresholdBit
  split
  next habove => exact iff_of_true rfl habove
  next hbelow => exact iff_of_false (by decide) hbelow

theorem decidedBit_not_inverted (r g b : Byte) (t : BitVec 8) :
    decidedBit r g b t 0 = thresholdBit (scaledLuminance r g b) t := BitVec.xor_zero

/-- The invert flag complements the decided value (41_encoder R122). -/
theorem decidedBit_inverted (r g b : Byte) (t : BitVec 8) : decidedBit r g b t 1 = ~~~decidedBit r g b t 0 := by
  rw [decidedBit_not_inverted, decidedBit]
  exact BitVec.xor_allOnes

theorem complement_eq_one_iff (v : BitVec 1) : ~~~v = 1 ↔ ¬ v = 1 := by
  obtain rfl | rfl := BitVec.eq_zero_or_eq_one v <;> decide

/-- Settles O37: the comparator compares the luminance itself, and the flag complements the result. -/
theorem decisionComparesExactLuminance : Obligations.DecisionComparesExactLuminance := by
  intro r g b t
  have hraw : thresholdBit (scaledLuminance r g b) t = 1 ↔ luminance r g b > (t.toNat : ℚ) :=
    (thresholdBit_eq_one_iff _ t).trans (lt_luminance_iff r g b t).symm
  have hplain : decidedBit r g b t 0 = 1 ↔ luminance r g b > (t.toNat : ℚ) := by rwa [decidedBit_not_inverted]
  refine ⟨hraw, hplain, ?_⟩
  rw [decidedBit_inverted, complement_eq_one_iff, hplain]

/-! The placement. -/

/-- The rounded-up quotient of 00_scope R8 is the ceiling of the exact one. -/
theorem ceil_div_eq_ceilDiv (n : Nat) {bs : Nat} (hbs : 0 < bs) : ⌈(n : ℚ) / (bs : ℚ)⌉₊ = ceilDiv n bs := by
  refine eq_of_forall_ge_iff fun c => ?_
  have hceil : ceilDiv n bs ≤ c ↔ n ≤ bs * c := ceilDiv_le_iff_le_mul hbs
  rw [hceil, Nat.ceil_le, div_le_iff₀' (Nat.cast_pos.mpr hbs), ← Nat.cast_mul, Nat.cast_le]

theorem ceilDiv_zero_left {bs : Nat} (hbs : 0 < bs) : ceilDiv 0 bs = 0 :=
  Nat.div_eq_of_lt (by omega)

theorem lt_ceilDiv_iff {k n bs : Nat} (hbs : 0 < bs) : k < ceilDiv n bs ↔ bs * k < n :=
  lt_iff_lt_of_le_iff_le (ceilDiv_le_iff_le_mul hbs)

theorem byteIndex_add_one (i : Nat) {bs : Nat} (hbs : 0 < bs) : byteIndex bs i + 1 = ceilDiv (i + 1) bs := by
  rw [ceilDiv, show i + 1 + bs - 1 = i + bs by omega, Nat.add_div_right i hbs]
  rfl

theorem bitPos_lt (i : Nat) {bs : Nat} (hbs : 0 < bs) : bitPos bs i < bs := by
  unfold bitPos
  omega

/-- The pixel number that stands at bit `j` of byte `k` (41_encoder R124, R129). -/
def pixelAt (bs k j : Nat) : Nat := k * bs + (bs - 1 - j)

/-- `pixelAt` is the inverse of the placement, on the used bits (41_encoder R123, R124). -/
theorem placement_iff {bs i k j : Nat} (hbs : 0 < bs) :
    byteIndex bs i = k ∧ bitPos bs i = j ↔ j < bs ∧ pixelAt bs k j = i := by
  have hdiv := Nat.div_add_mod' i bs
  have hmod := Nat.mod_lt i hbs
  constructor
  · rintro ⟨rfl, rfl⟩
    refine ⟨bitPos_lt i hbs, ?_⟩
    simp only [pixelAt, byteIndex, bitPos]
    omega
  · rintro ⟨hj, rfl⟩
    have hpos : bs - 1 - j < bs := by omega
    refine ⟨?_, ?_⟩
    · rw [byteIndex, pixelAt, Nat.add_comm, Nat.add_mul_div_right _ _ hbs, Nat.div_eq_of_lt hpos, Nat.zero_add]
    · rw [bitPos, pixelAt, Nat.add_comm, Nat.add_mul_mod_self_right, Nat.mod_eq_of_lt hpos]
      omega

theorem blockSize_pos {bs : Nat} (h : bs = 2 ∨ bs = 4 ∨ bs = 8) : 0 < bs := by omega

theorem blockSize_eq_two_pow {bs : Nat} (h : bs = 2 ∨ bs = 4 ∨ bs = 8) : ∃ e, bs = 2 ^ e := by
  obtain rfl | rfl | rfl := h
  · exact ⟨1, rfl⟩
  · exact ⟨2, rfl⟩
  · exact ⟨3, rfl⟩

/-- Settles O38: quotient and remainder by a power of two are a shift and a mask. -/
theorem placementMatchesSourceFormulas : Obligations.PlacementMatchesSourceFormulas := by
  intro bs i hlegal
  have hbs := blockSize_pos hlegal
  obtain ⟨e, he⟩ := blockSize_eq_two_pow hlegal
  refine ⟨?_, rfl, bitPos_lt i hbs, ?_, ?_⟩
  · rw [ceil_div_eq_ceilDiv _ hbs]
    exact byteIndex_add_one i hbs
  · rw [he, Nat.log2_two_pow, Nat.shiftRight_eq_div_pow]
    rfl
  · rw [he, Nat.and_two_pow_sub_one_eq_mod]
    rfl

/-- Settles O39: `pixelAt` gives the one pixel of each used bit. -/
theorem placementIsOneToOne : Obligations.PlacementIsOneToOne := by
  intro bs hlegal
  have hbs := blockSize_pos hlegal
  refine ⟨fun i j hbyte hbit => ?_, fun k j hj => ⟨pixelAt bs k j, (placement_iff hbs).mpr ⟨hj, rfl⟩⟩⟩
  obtain ⟨-, hi⟩ := (placement_iff hbs).mp ⟨hbyte, hbit⟩
  obtain ⟨-, hj⟩ := (placement_iff hbs).mp ⟨rfl, rfl⟩
  exact hi.symm.trans hj

/-! The packed buffer. -/

section
variable {bs : Nat} {t : BitVec 8} {inv : BitVec 1}

@[simp] theorem packInto_length (i : Nat) (v : BitVec 1) (buf : List Byte) :
    (packInto bs i v buf).length = buf.length := List.length_modify _ _ _

/-- Packing a pixel rewrites its own byte and no other (41_encoder R124). -/
theorem packInto_getElem? (i k : Nat) (v : BitVec 1) (buf : List Byte) : (packInto bs i v buf)[k]? =
    if byteIndex bs i = k then buf[k]?.map fun old => setBitTo old (bitPos bs i) v else buf[k]? := by
  rw [packInto, List.getElem?_modify]
  split
  · rfl
  · exact Option.map_id'

theorem encodeFrom_length (ps : List Pixel) (i : Nat) (buf : List Byte) :
    (encodeFrom bs t inv i ps buf).length = buf.length := by
  induction ps generalizing i buf with
  | nil => rfl
  | cons p ps ih => rw [encodeFrom, ih, packInto_length]

/-- The loop of R129, one pixel further. -/
theorem encodeFrom_concat (ps : List Pixel) (p : Pixel) (i : Nat) (buf : List Byte) :
    encodeFrom bs t inv i (ps ++ [p]) buf =
      packInto bs (i + ps.length) (decidedBit p.r p.g p.b t inv) (encodeFrom bs t inv i ps buf) := by
  induction ps generalizing i buf with
  | nil => rfl
  | cons q ps ih =>
    rw [List.cons_append, encodeFrom, ih, encodeFrom, List.length_cons, Nat.add_assoc i 1, Nat.add_comm 1]

theorem encodePixels_length (ps : List Pixel) : (encodePixels bs t inv ps).length = ceilDiv ps.length bs := by
  rw [encodePixels, encodeFrom_length, List.length_replicate]

/-- Settles O40: the loop keeps the length of the zeroed buffer. -/
theorem packedBufferLength : Obligations.PackedBufferLength := by
  intro bs t inv ps hlegal
  have hbs := blockSize_pos hlegal
  refine ⟨(encodePixels_length ps).trans (ceil_div_eq_ceilDiv _ hbs).symm, List.eq_nil_of_length_eq_zero ?_⟩
  rw [encodePixels_length]
  exact ceilDiv_zero_left hbs

/-- The closed form of R129: bit `j` of byte `k` of the packed buffer. -/
def packedBit (bs : Nat) (t : BitVec 8) (inv : BitVec 1) (ps : List Pixel) (k j : Nat) : Bool :=
  decide (j < bs) && match ps[pixelAt bs k j]? with
    | some p => (decidedBit p.r p.g p.b t inv).getLsbD 0
    | none => false

theorem packedBit_nil (k j : Nat) : packedBit bs t inv [] k j = false := by simp [packedBit]

theorem packedBit_concat (hbs : 0 < bs) (ps : List Pixel) (p : Pixel) (k j : Nat) :
    packedBit bs t inv (ps ++ [p]) k j =
      if byteIndex bs ps.length = k ∧ bitPos bs ps.length = j then (decidedBit p.r p.g p.b t inv).getLsbD 0
      else packedBit bs t inv ps k j := by
  simp only [placement_iff hbs]
  by_cases hj : j < bs
  · simp only [packedBit, hj, decide_true, Bool.true_and, true_and]
    by_cases hnew : pixelAt bs k j = ps.length
    · rw [if_pos hnew, hnew, List.getElem?_concat_length]
    · have hsame : (ps ++ [p])[pixelAt bs k j]? = ps[pixelAt bs k j]? := by
        obtain hlt | hgt := Nat.lt_or_gt_of_ne hnew
        · exact List.getElem?_append_left hlt
        · rw [List.getElem?_eq_none (Nat.le_of_lt hgt), List.getElem?_eq_none (by simpa using hgt)]
      rw [if_neg hnew, hsame]
  · simp [packedBit, hj]

/-- Every byte of the loop's result on a zeroed buffer has the bits of the closed form, by induction on the pixels
packed so far. -/
theorem encodeFrom_zeroed_bits (hbs : 0 < bs) (ps : List Pixel) {len k : Nat} (hk : k < len) :
    ∃ v, (encodeFrom bs t inv 0 ps (List.replicate len 0))[k]? = some v ∧
      ∀ j, j < 8 → v.getLsbD j = packedBit bs t inv ps k j := by
  induction ps using List.reverseRecOn with
  | nil => exact ⟨0, by simp [encodeFrom, hk], fun j _ => by simp [packedBit_nil]⟩
  | append_singleton ps p ih =>
    obtain ⟨old, hold, hbits⟩ := ih
    rw [encodeFrom_concat, packInto_getElem?, hold, Nat.zero_add]
    split
    next hbyte =>
      refine ⟨_, rfl, fun j hj => ?_⟩
      simp only [setBitTo_bit _ _ _ _ hj, packedBit_concat hbs, hbyte, true_and, hbits j hj, eq_comm (a := j)]
    next hbyte =>
      refine ⟨old, rfl, fun j hj => ?_⟩
      rw [packedBit_concat hbs, if_neg (fun h => hbyte h.1), hbits j hj]

theorem lt_encodePixels_length (hbs : 0 < bs) {ps : List Pixel} {k : Nat} :
    k < (encodePixels bs t inv ps).length ↔ bs * k < ps.length := by
  rw [encodePixels_length, lt_ceilDiv_iff hbs]

theorem encodePixels_bits (hbs : 0 < bs) {ps : List Pixel} {k : Nat} (hk : bs * k < ps.length) :
    ∃ v, (encodePixels bs t inv ps)[k]? = some v ∧ ∀ j, j < 8 → v.getLsbD j = packedBit bs t inv ps k j :=
  encodeFrom_zeroed_bits hbs ps ((lt_ceilDiv_iff hbs).mpr hk)

end

/-- Settles O41: the closed form is `packedBit`. -/
theorem encodeClosedForm : Obligations.EncodeClosedForm := by
  intro bs t inv ps k j hlegal hk hj
  have hbs := blockSize_pos hlegal
  obtain ⟨v, hv, hbits⟩ := encodePixels_bits hbs ((lt_encodePixels_length hbs).mp hk)
  exact ⟨v, hv, hbits j hj⟩

/-! The invert flag. -/

/-- M_k of 41_encoder R133: the addressed bits of byte `k` for `n` pixels. -/
def addressedMask (bs n k : Nat) : Byte :=
  if (k + 1) * bs ≤ n then BitVec.ofNat 8 (2 ^ bs - 1) else BitVec.ofNat 8 (2 ^ (n % bs) - 1) <<< (bs - n % bs)

theorem getLsbD_ofNat_two_pow_sub_one {m j : Nat} (hj : j < 8) :
    (BitVec.ofNat 8 (2 ^ m - 1)).getLsbD j = decide (j < m) := by
  rw [BitVec.getLsbD_ofNat, Nat.testBit_two_pow_sub_one, decide_eq_true hj, Bool.true_and]

/-- A bit of byte `k` is in the mask exactly when a pixel is placed there: all used bits of a full block, the upper ones
of the last, partial block. -/
theorem addressedMask_bit {bs n k j : Nat} (hk : bs * k < n) (hj : j < 8) :
    (addressedMask bs n k).getLsbD j = decide (j < bs ∧ pixelAt bs k j < n) := by
  unfold addressedMask pixelAt
  have hsucc : (k + 1) * bs = k * bs + bs := Nat.succ_mul k bs
  rw [Nat.mul_comm] at hk
  split
  next hfull =>
    rw [getLsbD_ofNat_two_pow_sub_one hj, decide_eq_decide]
    omega
  next hpartial =>
    have hblock : n / bs = k := Nat.div_eq_of_lt_le hk.le (not_le.mp hpartial)
    have hlast : k * bs + n % bs = n := by
      conv_rhs => rw [← Nat.div_add_mod' n bs, hblock]
    rw [BitVec.getLsbD_shiftLeft, getLsbD_ofNat_two_pow_sub_one (by omega), Bool.eq_iff_iff]
    simp only [Bool.and_eq_true, Bool.not_eq_true', decide_eq_true_eq, decide_eq_false_iff_not]
    omega

section
variable {bs : Nat} {t : BitVec 8} {inv : BitVec 1} {ps : List Pixel} {k j : Nat}

theorem packedBit_of_addressed (hj : j < bs) (hi : pixelAt bs k j < ps.length) : packedBit bs t inv ps k j =
    (decidedBit ps[pixelAt bs k j].r ps[pixelAt bs k j].g ps[pixelAt bs k j].b t inv).getLsbD 0 := by
  simp only [packedBit, hj, decide_true, Bool.true_and, List.getElem?_eq_getElem hi]

theorem packedBit_of_not_addressed (h : ¬ (j < bs ∧ pixelAt bs k j < ps.length)) :
    packedBit bs t inv ps k j = false := by
  by_cases hj : j < bs
  · have hi : ps.length ≤ pixelAt bs k j := not_lt.mp fun hi => h ⟨hj, hi⟩
    simp [packedBit, List.getElem?_eq_none hi]
  · simp [packedBit, hj]

/-- Every addressed bit of the one is the complement of the same bit of the other (41_encoder R133). -/
theorem packedBit_inverted : packedBit bs t 1 ps k j =
    (packedBit bs t 0 ps k j ^^ decide (j < bs ∧ pixelAt bs k j < ps.length)) := by
  by_cases h : j < bs ∧ pixelAt bs k j < ps.length
  · rw [packedBit_of_addressed h.1 h.2, packedBit_of_addressed h.1 h.2, decidedBit_inverted, decide_eq_true h]
    simp
  · rw [packedBit_of_not_addressed h, packedBit_of_not_addressed h, decide_eq_false h]
    rfl

/-- A byte with the bits of the closed form is 0 outside the mask. -/
theorem and_not_addressedMask {v : Byte} (hk : bs * k < ps.length)
    (hv : ∀ j, j < 8 → v.getLsbD j = packedBit bs t inv ps k j) : v &&& ~~~addressedMask bs ps.length k = 0 := by
  apply BitVec.eq_of_getLsbD_eq
  intro j hj
  rw [BitVec.getLsbD_and, BitVec.getLsbD_not, addressedMask_bit hk hj, hv j hj]
  by_cases h : j < bs ∧ pixelAt bs k j < ps.length
  · simp [h]
  · simp [packedBit_of_not_addressed h]

end

/-- Only a full block of eight has a mask of the whole byte. -/
theorem addressedMask_eq_allOnes_iff {bs n k : Nat} (hlegal : bs = 2 ∨ bs = 4 ∨ bs = 8) (hk : bs * k < n) :
    addressedMask bs n k = BitVec.allOnes 8 ↔ bs = 8 ∧ (k + 1) * bs ≤ n := by
  constructor
  · intro hmask
    have hbit : ∀ j, j < 8 → j < bs ∧ pixelAt bs k j < n := fun j hj =>
      of_decide_eq_true (by rw [← addressedMask_bit hk hj, hmask, BitVec.getLsbD_allOnes, decide_eq_true hj])
    obtain ⟨htop, -⟩ := hbit 7 (by decide)
    obtain ⟨-, hlow⟩ := hbit 0 (by decide)
    simp only [pixelAt, Nat.succ_mul] at hlow ⊢
    omega
  · rintro ⟨rfl, hfull⟩
    rw [addressedMask, if_pos hfull]
    rfl

/-- Settles O42, bit by bit: the inverted byte is the other one with the mask's bits flipped. -/
theorem invertSymmetry : Obligations.InvertSymmetry := by
  intro bs t ps k hlegal hk n m mask
  have hbs := blockSize_pos hlegal
  have hblock := (lt_encodePixels_length hbs).mp hk
  obtain ⟨x, hx, hxbits⟩ := encodePixels_bits (t := t) (inv := 0) hbs hblock
  obtain ⟨y, hy, hybits⟩ := encodePixels_bits (t := t) (inv := 1) hbs hblock
  have hmask : mask = addressedMask bs ps.length k := rfl
  have hxor : y = x ^^^ mask := by
    apply BitVec.eq_of_getLsbD_eq
    intro j hj
    rw [BitVec.getLsbD_xor, hybits j hj, hxbits j hj, hmask, addressedMask_bit hblock hj, packedBit_inverted]
  refine ⟨x, y, hx, hy, hxor, and_not_addressedMask hblock hxbits, and_not_addressedMask hblock hybits, ?_⟩
  rw [hxor, ← BitVec.xor_allOnes, BitVec.xor_right_inj, hmask]
  exact addressedMask_eq_allOnes_iff hlegal hblock

end Sys2Proof.Machine
end

section
/-! START and PIXEL: each outcome with its whole next state and response (41_encoder R130, R131). -/

namespace Sys2Proof.Machine

/-! START. -/

section
variable {s : State} {n len : Nat}

theorem execStart_of_exceeds (h : Config.pbufBytes < ceilDiv (s.width.toNat * s.height.toNat) s.bsize.toNat) :
    execStart s = .next (rejectedAs 8 s) := by
  unfold execStart
  exact if_pos h

theorem execStart_of_fits (pixels : n = s.width.toNat * s.height.toNat) (length : len = ceilDiv n s.bsize.toNat)
    (fits : len ≤ Config.pbufBytes) : ∃ m : Memory, (∀ k, m.read k = if k < len then some 0 else s.pbuf.read k) ∧
      execStart s = .next { beginConversion n len s with pbuf := m, rsp := some 0 } := by
  subst pixels length
  obtain ⟨m, hm, zeroed, -⟩ := zeroFill_spec _ (beginConversion _ _ s) fits
  refine ⟨m, zeroed, ?_⟩
  unfold execStart
  dsimp only
  rw [if_neg (not_lt.mpr fits), hm]
  rfl

end

/-- Settles O13: the capacity decides between the rejection and the zeroing loop, and the row has no payload. -/
theorem startBeginsConversion : Obligations.StartBeginsConversion := by
  intro s hlegal
  dsimp only
  rw [ceil_div_eq_ceilDiv _ (toNat_pos_of_legal hlegal)]
  refine ⟨execStart_of_exceeds, fun fits => ?_, fun w hop => ?_⟩
  · obtain ⟨m, zeroed, hexec⟩ := execStart_of_fits rfl rfl fits
    exact ⟨_, _, m, toNat_ofNat_pixels s.width s.height, toNat_ofNat_of_le_pbufBytes fits, zeroed, hexec⟩
  · exact (runWord_bare (k := 7) rfl rfl hop s).trans (ite_not _ _ _).symm

/-! PIXEL. -/

/-- What an accepted PIXEL leaves, its response with it, when its byte holds `old` (41_encoder R131). -/
def pixelTaken (p : Pixel) (old : Byte) (s : State) : State :=
  let v := decidedBit p.r p.g p.b s.aTh s.aInv
  let byte := setBitTo old (bitPos s.aBs.toNat s.pidx.toNat) v
  { countPixel (scaledLuminance p.r p.g p.b)
      { s with pbuf := s.pbuf.write (byteIndex s.aBs.toNat s.pidx.toNat) byte } with rsp := some (previewWord v) }

@[simp] theorem pixelTaken_aBs (p : Pixel) (old : Byte) (s : State) : (pixelTaken p old s).aBs = s.aBs := rfl
@[simp] theorem pixelTaken_aTh (p : Pixel) (old : Byte) (s : State) : (pixelTaken p old s).aTh = s.aTh := rfl
@[simp] theorem pixelTaken_aInv (p : Pixel) (old : Byte) (s : State) : (pixelTaken p old s).aInv = s.aInv := rfl
@[simp] theorem pixelTaken_npix (p : Pixel) (old : Byte) (s : State) : (pixelTaken p old s).npix = s.npix := rfl
@[simp] theorem pixelTaken_plen (p : Pixel) (old : Byte) (s : State) : (pixelTaken p old s).plen = s.plen := rfl

section
variable {s : State}

theorem execPixel_of_not_encoding (hphase : s.phase ≠ .encoding) (r g b : BitVec 8) :
    execPixel r g b s = .next (rejectedAs 4 s) := if_neg hphase

theorem execPixel_of_encoding (hs : s.Inv) (encoding : s.phase = .encoding) (r g b : BitVec 8) :
    ∃ old, s.pbuf.read (byteIndex s.aBs.toNat s.pidx.toNat) = some old ∧
      execPixel r g b s = .next (pixelTaken ⟨r, g, b⟩ old s) := by
  obtain ⟨u, hu⟩ := packPixel_of_encoding hs encoding (decidedBit r g b s.aTh s.aInv)
  obtain ⟨old, -, value, rfl⟩ := packPixel_ok.mp hu
  refine ⟨old, value, ?_⟩
  unfold execPixel
  dsimp only
  rw [if_pos encoding, hu]
  rfl

/-- PIDX cannot wrap while pixels are missing (10_state R33, R44). -/
theorem toNat_pidx_add_one (hs : s.Inv) (encoding : s.phase = .encoding) : (s.pidx + 1).toNat = s.pidx.toNat + 1 := by
  obtain ⟨-, hmissing, -⟩ := hs.pixelIndex
  exact toNat_add_one_of_lt (hmissing encoding)

theorem pixelTaken_phase (hs : s.Inv) (encoding : s.phase = .encoding) (p : Pixel) (old : Byte) :
    (pixelTaken p old s).phase = if s.pidx.toNat + 1 = s.npix.toNat then .encoded else .encoding := by
  have hlast : s.pidx + 1 = s.npix ↔ s.pidx.toNat + 1 = s.npix.toNat := by
    rw [BitVec.toNat_eq, toNat_pidx_add_one hs encoding]
  simp only [pixelTaken, countPixel_phase, hlast, encoding]

theorem pixelTaken_pidx (hs : s.Inv) (encoding : s.phase = .encoding) (p : Pixel) (old : Byte) :
    (pixelTaken p old s).pidx.toNat = s.pidx.toNat + 1 :=
  toNat_pidx_add_one (s := s) hs encoding

/-- LUM is wide enough for W (10_state R36, 41_encoder R120). -/
theorem pixelTaken_lum (p : Pixel) (old : Byte) :
    (pixelTaken p old s).lum.toNat = scaledLuminance p.r p.g p.b := by
  have hle := scaledLuminance_le p.r p.g p.b
  simp only [pixelTaken, countPixel_lum, BitVec.toNat_ofNat]
  exact Nat.mod_eq_of_lt (by omega)

theorem pixelTaken_read (p : Pixel) (old : Byte) (k : Nat) : (pixelTaken p old s).pbuf.read k =
    if k = byteIndex s.aBs.toNat s.pidx.toNat then
      some (setBitTo old (bitPos s.aBs.toNat s.pidx.toNat) (decidedBit p.r p.g p.b s.aTh s.aInv))
    else s.pbuf.read k :=
  Memory.read_write ..

end

/-- Settles O14: PHASE decides between the rejection and the packed pixel, and the row has four reserved bits. -/
theorem pixelPacksItsBit : Obligations.PixelPacksItsBit := by
  intro s hs
  refine ⟨fun r g b hphase => execPixel_of_not_encoding hphase r g b, fun r g b encoding => ?_, fun w hop => ?_⟩
  · obtain ⟨old, value, hexec⟩ := execPixel_of_encoding hs encoding r g b
    refine ⟨pixel_byteIndex_lt_plen hs encoding, old, pixelTaken ⟨r, g, b⟩ old s, value, hexec, ?_, ?_,
      pixelTaken_lum _ _, pixelTaken_pidx hs encoding _ _, ?_⟩
    · exact (pixelTaken_read _ _ _).trans (if_pos rfl)
    · exact fun a ha => (pixelTaken_read _ _ _).trans (if_neg ha)
    · rw [← pixelTaken_phase hs encoding ⟨r, g, b⟩ old]
      rfl
  · exact runWord_reserved (k := 8) rfl rfl hop s

end Sys2Proof.Machine
end

section
/-! A whole conversion: what holds from START on, whatever commands but START follow, gives the packed buffer of R129
(41_encoder R132). -/

namespace Sys2Proof.Machine

open Host

/-! The pixels of a command sequence. -/

theorem pixelOf_eq_some_iff {w : Word} {p : Pixel} :
    pixelOf w = some p ↔ decode w = some (.pixel p.r p.g p.b) := by
  unfold pixelOf
  split
  next r g b hd =>
    rw [hd]
    simp only [Option.some.injEq, Instr.pixel.injEq]
    exact ⟨by rintro rfl; exact ⟨rfl, rfl, rfl⟩, by rintro ⟨rfl, rfl, rfl⟩; rfl⟩
  next hother => exact iff_of_false (by simp) (hother _ _ _)

theorem pixelsIn_cons (w : Word) (ws : List Word) : pixelsIn (w :: ws) = (pixelOf w).toList ++ pixelsIn ws := by
  unfold pixelsIn
  cases hw : pixelOf w with
  | none => exact List.filterMap_cons_none hw
  | some p => exact List.filterMap_cons_some hw

/-! The conversion as an invariant. -/

/-- `s` is a state of the conversion that START began in `c`, after commands that carried the pixels `ps`: the packed
bytes are the loop of R129 run on those of the pixels that the image takes. -/
structure Converting (c : State) (ps : List Pixel) (s : State) : Prop where
  inv : s.Inv
  started : s.phase ≠ .idle
  latched : s.aBs = c.bsize ∧ s.aTh = c.thresh ∧ s.aInv = c.invert
  pixels : s.npix.toNat = c.width.toNat * c.height.toNat
  taken : s.pidx.toNat = (ps.take s.npix.toNat).length
  packed : ∀ k, k < s.plen.toNat → s.pbuf.read k = (encodeFrom s.aBs.toNat s.aTh s.aInv 0 (ps.take s.npix.toNat)
    (List.replicate s.plen.toNat 0))[k]?

/-- Nothing that belongs to the conversion differs: the latched configuration, the counts, PHASE and PBUF. -/
structure SameConversion (s t : State) : Prop where
  latched : t.aBs = s.aBs ∧ t.aTh = s.aTh ∧ t.aInv = s.aInv
  counts : t.npix = s.npix ∧ t.plen = s.plen ∧ t.pidx = s.pidx
  phase : t.phase = s.phase
  pbuf : t.pbuf = s.pbuf

/-- Only START and PIXEL touch a conversion. -/
theorem runWord_sameConversion {w : Word} {s t : State} (hstart : decode w ≠ some .start) (hpixel : pixelOf w = none)
    (h : runWord w s = .next t) : SameConversion s t := by
  obtain ⟨code, rfl⟩ | ⟨i, u, r, hd, hu, rfl⟩ := runWord_completes h
  · exact ⟨⟨rfl, rfl, rfl⟩, ⟨rfl, rfl, rfl⟩, rfl, rfl⟩
  · cases hu with
    | start => exact absurd hd hstart
    | pixel r g b =>
      have hsome : pixelOf w = some ⟨r, g, b⟩ := pixelOf_eq_some_iff.mpr hd
      exact absurd hpixel (by simp [hsome])
    | _ => exact ⟨⟨rfl, rfl, rfl⟩, ⟨rfl, rfl, rfl⟩, rfl, rfl⟩

section
variable {c s t : State} {ps : List Pixel}

theorem Converting.of_same (h : Converting c ps s) (hsame : SameConversion s t) (ht : t.Inv) : Converting c ps t := by
  obtain ⟨⟨haBs, haTh, haInv⟩, ⟨hnpix, hplen, hpidx⟩, hphase, hpbuf⟩ := hsame
  exact {
    inv := ht
    started := hphase ▸ h.started
    latched := by rw [haBs, haTh, haInv]; exact h.latched
    pixels := hnpix ▸ h.pixels
    taken := by rw [hpidx, hnpix]; exact h.taken
    packed := by rw [haBs, haTh, haInv, hnpix, hplen, hpbuf]; exact h.packed }

/-- The host's taking of a response is no part of the conversion. -/
theorem Converting.responseTaken (h : Converting c ps s) : Converting c ps { s with rsp := none } :=
  h.of_same ⟨⟨rfl, rfl, rfl⟩, ⟨rfl, rfl, rfl⟩, rfl, rfl⟩ { h.inv with }

/-- PHASE waits exactly while pixels are missing. -/
theorem Converting.phase_of_taken (h : Converting c ps s) :
    s.phase = if ps.length < s.npix.toNat then .encoding else .encoded := by
  have htaken := h.taken
  rw [List.length_take] at htaken
  obtain ⟨-, hencoding, hencoded⟩ := h.inv.pixelIndex
  cases hphase : s.phase with
  | idle => exact absurd hphase h.started
  | encoding =>
    have hmissing := hencoding hphase
    exact (if_pos (by omega)).symm
  | encoded =>
    have hdone := congrArg BitVec.toNat (hencoded hphase)
    exact (if_neg (by omega)).symm

theorem Converting.phase_eq_encoding_iff (h : Converting c ps s) :
    s.phase = .encoding ↔ ps.length < s.npix.toNat := by
  rw [h.phase_of_taken]
  split
  next hmissing => exact iff_of_true rfl hmissing
  next hfull => exact iff_of_false (by decide) hfull

/-- Pixels beyond the image change nothing. -/
theorem Converting.append_surplus (h : Converting c ps s) (hfull : s.npix.toNat ≤ ps.length) (qs : List Pixel) :
    Converting c (ps ++ qs) s := by
  have htake : (ps ++ qs).take s.npix.toNat = ps.take s.npix.toNat := List.take_append_of_le_length hfull
  exact { h with
    taken := by rw [htake]; exact h.taken
    packed := by rw [htake]; exact h.packed }

/-- A pixel of the image is one more turn of the loop of R129. -/
theorem Converting.after_pixel (h : Converting c ps s) (encoding : s.phase = .encoding) {p : Pixel} {old : Byte}
    (value : s.pbuf.read (byteIndex s.aBs.toNat s.pidx.toNat) = some old) (ht : (pixelTaken p old s).Inv) :
    Converting c (ps ++ [p]) (pixelTaken p old s) := by
  have hmissing := h.phase_eq_encoding_iff.mp encoding
  have hbefore : ps.take s.npix.toNat = ps := List.take_of_length_le hmissing.le
  have hafter : (ps ++ [p]).take s.npix.toNat = ps ++ [p] := List.take_of_length_le (by simpa using hmissing)
  have hpidx : s.pidx.toNat = ps.length := by rw [h.taken, hbefore]
  exact {
    inv := ht
    started := by
      rw [pixelTaken_phase h.inv encoding]
      split <;> decide
    latched := h.latched
    pixels := h.pixels
    taken := by
      rw [pixelTaken_pidx h.inv encoding, pixelTaken_npix, hafter, hpidx, List.length_append, List.length_singleton]
    packed := fun k hk => by
      have hold := h.packed k hk
      rw [hbefore] at hold
      simp only [pixelTaken_aBs, pixelTaken_aTh, pixelTaken_aInv, pixelTaken_npix, pixelTaken_plen]
      rw [hafter, encodeFrom_concat, packInto_getElem?, Nat.zero_add, ← hpidx, ← hold, pixelTaken_read]
      by_cases hplace : byteIndex s.aBs.toNat s.pidx.toNat = k
      · rw [if_pos hplace, if_pos hplace.symm, ← hplace, value]
        rfl
      · rw [if_neg hplace, if_neg (Ne.symm hplace)] }

/-- Every command but START carries the conversion on with the pixel it brings, if any. -/
theorem Converting.after_word {w : Word} (h : Converting c ps s) (hstart : decode w ≠ some .start)
    (hrun : runWord w s = .next t) : Converting c (ps ++ (pixelOf w).toList) t := by
  have ht : t.Inv := runWord_keeps_inv h.inv hrun
  cases hpixel : pixelOf w with
  | none =>
    rw [Option.toList_none, List.append_nil]
    exact h.of_same (runWord_sameConversion hstart hpixel hrun) ht
  | some p =>
    have hexec : execPixel p.r p.g p.b s = .next t :=
      (runWord_decoded (pixelOf_eq_some_iff.mp hpixel) s).symm.trans hrun
    by_cases encoding : s.phase = .encoding
    · obtain ⟨old, value, htaken⟩ := execPixel_of_encoding h.inv encoding p.r p.g p.b
      obtain rfl : pixelTaken p old s = t := by simpa [htaken] using hexec
      exact h.after_pixel encoding value ht
    · obtain rfl : rejectedAs 4 s = t := by simpa [execPixel_of_not_encoding encoding] using hexec
      have hfull : s.npix.toNat ≤ ps.length := not_lt.mp (mt h.phase_eq_encoding_iff.mpr encoding)
      exact (h.append_surplus hfull _).of_same ⟨⟨rfl, rfl, rfl⟩, ⟨rfl, rfl, rfl⟩, rfl, rfl⟩ ht

theorem Converting.after_session {ws : List Word} {rs : List Word} (h : Converting c ps s)
    (hws : ∀ w ∈ ws, decode w ≠ some .start) (hsession : session ws s = .next (t, rs)) :
    Converting c (ps ++ pixelsIn ws) t := by
  induction ws generalizing s ps rs with
  | nil =>
    cases hsession
    exact (List.append_nil ps).symm ▸ h
  | cons w ws ih =>
    obtain ⟨hw, hws⟩ := List.forall_mem_cons.mp hws
    obtain ⟨s1, rs', hword, hrest, -⟩ := session_cons_next.mp hsession
    rw [pixelsIn_cons, ← List.append_assoc]
    exact ih (h.after_word hw hword).responseTaken hws hrest

/-- START begins a conversion with no pixel packed (41_encoder R130). -/
theorem converting_of_start (hs : s.Inv)
    (fits : ceilDiv (s.width.toNat * s.height.toNat) s.bsize.toNat ≤ Config.pbufBytes)
    (hrun : runWord (encode .start) s = .next t) : Converting s [] t := by
  have ht : t.Inv := runWord_keeps_inv hs hrun
  obtain ⟨m, zeroed, hexec⟩ := execStart_of_fits rfl rfl fits
  rw [runWord_decoded (decodeEncodeRoundTrip .start)] at hrun
  obtain rfl := Outcome.next.inj (hexec.symm.trans hrun)
  have hlen := toNat_ofNat_of_le_pbufBytes fits
  exact {
    inv := ht
    started := by
      simp only [beginConversion_phase]
      split <;> decide
    latched := ⟨rfl, rfl, rfl⟩
    pixels := toNat_ofNat_pixels s.width s.height
    taken := by simp
    packed := fun k hk => by
      rw [List.take_nil, encodeFrom, List.getElem?_replicate_of_lt hk]
      exact (zeroed k).trans (if_pos (hk.trans_eq hlen)) }

/-- With all its pixels brought, the conversion is done and PBUF is their Encode (41_encoder R129). -/
theorem Converting.packed_eq_encodePixels (h : Converting c ps s) (hfull : s.npix.toNat ≤ ps.length) :
    s.plen.toNat = (encodePixels s.aBs.toNat s.aTh s.aInv (ps.take s.npix.toNat)).length ∧
    ∀ k, k < s.plen.toNat →
      s.pbuf.read k = (encodePixels s.aBs.toNat s.aTh s.aInv (ps.take s.npix.toNat))[k]? := by
  have hplen : s.plen.toNat = ceilDiv (ps.take s.npix.toNat).length s.aBs.toNat := by
    rw [List.length_take_of_le hfull]
    exact h.inv.packedLength.1
  refine ⟨hplen.trans (encodePixels_length _).symm, fun k hk => ?_⟩
  rw [h.packed k hk, encodePixels, ← hplen]

theorem Converting.phase_eq_encoded (h : Converting c ps s) (hfull : s.npix.toNat ≤ ps.length) :
    s.phase = .encoded := by
  rw [h.phase_of_taken, if_neg (not_lt.mpr hfull)]

end

/-- Settles O43: `Converting` from START on, with all the pixels brought at the end. -/
theorem conversionComputesEncode : Obligations.ConversionComputesEncode := by
  intro s ws hs fits hws hpixels
  obtain ⟨t, rs, hsession, -⟩ := session_next hs (encode .start :: ws)
  obtain ⟨s1, rs', hword, hrest, -⟩ := session_cons_next.mp hsession
  have h : Converting s (pixelsIn ws) t := (converting_of_start hs fits hword).responseTaken.after_session hws hrest
  have hfull : t.npix.toNat ≤ (pixelsIn ws).length := h.pixels.trans_le hpixels
  obtain ⟨haBs, haTh, haInv⟩ := h.latched
  exact ⟨t, rs, hsession, h.phase_eq_encoded hfull, h.pixels, haBs, haTh, haInv, h.packed_eq_encodePixels hfull⟩

end Sys2Proof.Machine
end

section
/-! The text of the formatter as a function of the bytes: its tokens with what follows each, its length, the character
at each position, and its lines (42_formatter R150 to R153, R157). -/

namespace Sys2Proof.Machine

/-! The tokens. -/

/-- What the loop of 42_formatter R150 emits after token number `n`, counted from 1: a comma, and a line break
after every eighth. -/
def separator (n : Nat) : List Byte := charComma :: if n % 8 = 0 then [charLF] else []

theorem separator_of_mod_ne_zero {n : Nat} (h : n % 8 ≠ 0) : separator n = [charComma] := by
  rw [separator, if_neg h]

theorem separator_of_mod_eq_zero {n : Nat} (h : n % 8 = 0) : separator n = [charComma, charLF] := by
  rw [separator, if_pos h]

theorem separator_congr {m n : Nat} (h : m % 8 = n % 8) : separator m = separator n := by
  rw [separator, separator, h]

@[simp] theorem token_length (x : Byte) : (token x).length = 4 := rfl

theorem tokensFrom_cons (j : Nat) (x : Byte) (xs : List Byte) :
    tokensFrom j (x :: xs) = token x ++ separator (j + 1) ++ tokensFrom (j + 1) xs := by
  simp [tokensFrom, separator]

theorem tokensFrom_append (j : Nat) (xs ys : List Byte) :
    tokensFrom j (xs ++ ys) = tokensFrom j xs ++ tokensFrom (j + xs.length) ys := by
  induction xs generalizing j with
  | nil => rfl
  | cons x xs ih =>
    rw [List.cons_append, tokensFrom_cons, tokensFrom_cons, ih, List.append_assoc _ _ (tokensFrom _ ys),
      List.length_cons, Nat.add_right_comm j 1, Nat.add_assoc]

/-- The loop looks at the number of a byte only for its place in the line. -/
theorem tokensFrom_congr {i j : Nat} (h : i % 8 = j % 8) (xs : List Byte) : tokensFrom i xs = tokensFrom j xs := by
  induction xs generalizing i j with
  | nil => rfl
  | cons x xs ih =>
    have hnext : (i + 1) % 8 = (j + 1) % 8 := by omega
    rw [tokensFrom_cons, tokensFrom_cons, separator_congr hnext, ih hnext]

/-! The text is the tokens without the last separator. -/

theorem stripTrailing_append_separator (text : List Byte) (n : Nat) :
    stripTrailing (text ++ separator n) = text ++ [charComma] := by
  have hcomma : (charComma == charLF) = false := rfl
  by_cases hn : n % 8 = 0
  · simp [separator_of_mod_eq_zero hn, stripTrailing, hcomma]
  · simp [separator_of_mod_ne_zero hn, stripTrailing, hcomma]

theorem formatText_append_separator {bytes : List Byte} (h : bytes ≠ []) :
    formatText bytes ++ separator bytes.length = tokensFrom 0 bytes := by
  obtain rfl | ⟨xs, x, rfl⟩ := List.eq_nil_or_concat' bytes
  · exact absurd rfl h
  · have htokens : tokensFrom 0 (xs ++ [x]) = tokensFrom 0 xs ++ token x ++ separator (xs ++ [x]).length := by
      simp [tokensFrom_append, tokensFrom, separator]
    rw [formatText, htokens, stripTrailing_append_separator, List.dropLast_concat]

/-! The length (42_formatter R151). -/

/-- The position of token number `j`, counted from 0: five characters for each token before it, and their
line breaks. -/
def tokenStart (j : Nat) : Nat := 5 * j + j / 8

theorem tokenStart_add_one (j : Nat) : tokenStart (j + 1) = tokenStart j + (4 + (separator (j + 1)).length) := by
  simp only [tokenStart, separator]
  split <;> simp only [List.length_cons, List.length_nil] <;> omega

theorem tokenStart_add_length_tokensFrom (j : Nat) (xs : List Byte) :
    tokenStart j + (tokensFrom j xs).length = tokenStart (j + xs.length) := by
  induction xs generalizing j with
  | nil => rfl
  | cons x xs ih =>
    rw [tokensFrom_cons, List.length_append, List.length_append, token_length, ← Nat.add_assoc, ← tokenStart_add_one,
      ih, List.length_cons, Nat.add_assoc, Nat.add_comm 1]

theorem length_tokensFrom_zero (xs : List Byte) : (tokensFrom 0 xs).length = tokenStart xs.length := by
  simpa [tokenStart] using tokenStart_add_length_tokensFrom 0 xs

theorem length_formatText (bytes : List Byte) : (formatText bytes).length = textLen bytes.length := by
  cases bytes with
  | nil => rfl
  | cons x xs =>
    have hlength := congrArg List.length (formatText_append_separator (List.cons_ne_nil x xs))
    rw [List.length_append, length_tokensFrom_zero, List.length_cons, tokenStart_add_one] at hlength
    rw [List.length_cons, textLen, if_neg (Nat.succ_ne_zero _)]
    simp only [tokenStart] at hlength
    omega

/-- Settles O45: the length is that of the tokens without the last separator. -/
theorem textLengthFormula : Obligations.TextLengthFormula := by
  intro bytes
  rw [length_formatText]
  refine ⟨rfl, fun hbound => ?_⟩
  unfold textLen
  split <;> omega

/-! The characters (42_formatter R153). -/

/-- Every position of the tokens lies in one token or the separator after it. -/
theorem exists_tokenStart_add {t n : Nat} (ht : t < tokenStart n) :
    ∃ j k, j < n ∧ k < 4 + (separator (j + 1)).length ∧ t = tokenStart j + k := by
  induction n with
  | zero => exact absurd ht (Nat.not_lt_zero t)
  | succ n ih =>
    by_cases hbefore : t < tokenStart n
    · obtain ⟨j, k, hj, hk, rfl⟩ := ih hbefore
      exact ⟨j, k, hj.trans n.lt_succ_self, hk, rfl⟩
    · rw [tokenStart_add_one] at ht
      exact ⟨n, t - tokenStart n, n.lt_succ_self, by omega, by omega⟩

/-- Token number `j` with its separator stands at its position. -/
theorem tokensFrom_getElem?_tokenStart_add {bytes : List Byte} {j k : Nat} {x : Byte} (hx : bytes[j]? = some x)
    (hk : k < 4 + (separator (j + 1)).length) :
    (tokensFrom 0 bytes)[tokenStart j + k]? = (token x ++ separator (j + 1))[k]? := by
  obtain ⟨hj, rfl⟩ := List.getElem?_eq_some_iff.mp hx
  have hbefore : (bytes.take j).length = j := List.length_take_of_le hj.le
  have hsplit : tokensFrom 0 bytes =
      tokensFrom 0 (bytes.take j) ++
        (token bytes[j] ++ separator (j + 1) ++ tokensFrom (j + 1) (bytes.drop (j + 1))) := by
    rw [← tokensFrom_cons, ← List.drop_eq_getElem_cons hj]
    conv_lhs => rw [← List.take_append_drop j bytes, tokensFrom_append, hbefore, Nat.zero_add]
  rw [hsplit, List.getElem?_append_right (by rw [length_tokensFrom_zero, hbefore]; exact Nat.le_add_right ..),
    length_tokensFrom_zero, hbefore, Nat.add_sub_cancel_left, List.getElem?_append_left]
  rwa [List.length_append, token_length]

/-- Groups of 41 positions: 8 tokens of 5 and one LF. -/
theorem glyphAt_tokenStart_add {j k : Nat} (hk : k < 5) :
    [.fixed charZero, .fixed charX, .high j, .low j, .fixed charComma][k]? = some (glyphAt (tokenStart j + k)) := by
  have hgroup : (tokenStart j + k) / 41 = j / 8 := by unfold tokenStart; omega
  have hplace : (tokenStart j + k) % 41 = 5 * (j % 8) + k := by unfold tokenStart; omega
  have hbyte : 8 * (j / 8) + (5 * (j % 8) + k) / 5 = j := by omega
  have hnotLF : 5 * (j % 8) + k ≠ 40 := by omega
  have hdigit : (5 * (j % 8) + k) % 5 = k := by omega
  simp only [glyphAt, hgroup, hplace, hbyte, if_neg hnotLF, hdigit]
  interval_cases k <;> rfl

theorem glyphAt_lineBreak {j : Nat} (hj : (j + 1) % 8 = 0) : glyphAt (tokenStart j + 5) = .fixed charLF := by
  have hplace : (tokenStart j + 5) % 41 = 40 := by unfold tokenStart; omega
  simp only [glyphAt, hplace, if_pos]

/-- The character of a glyph over a list of bytes. -/
def glyphChar (bytes : List Byte) : Glyph → Byte
  | .fixed c => c
  | .high j => highDigit (bytes.getD j 0)
  | .low j => lowDigit (bytes.getD j 0)

theorem charAt_eq_glyphChar (bytes : List Byte) (t : Nat) : charAt bytes t = glyphChar bytes (glyphAt t) := rfl

theorem charAt_tokenStart_add {bytes : List Byte} {j k : Nat} {x : Byte} (hx : bytes[j]? = some x)
    (hk : k < 4 + (separator (j + 1)).length) :
    (token x ++ separator (j + 1))[k]? = some (charAt bytes (tokenStart j + k)) := by
  have hbyte : bytes.getD j 0 = x := by rw [List.getD_eq_getElem?_getD, hx, Option.getD_some]
  rw [charAt_eq_glyphChar]
  by_cases hfive : k < 5
  · have hglyphs : token x ++ [charComma] =
        [.fixed charZero, .fixed charX, .high j, .low j, .fixed charComma].map (glyphChar bytes) := by
      simp only [token, glyphChar, hbyte, List.map_cons, List.map_nil, List.cons_append, List.nil_append]
    calc (token x ++ separator (j + 1))[k]?
      _ = (token x ++ [charComma])[k]? := by
        rw [separator, List.append_cons, List.getElem?_append_left (by simpa using hfive)]
      _ = _ := by rw [hglyphs, List.getElem?_map, glyphAt_tokenStart_add hfive, Option.map_some]
  · by_cases hj : (j + 1) % 8 = 0
    · rw [separator_of_mod_eq_zero hj] at hk ⊢
      obtain rfl : k = 5 := by
        simp only [List.length_cons, List.length_nil] at hk
        omega
      rw [glyphAt_lineBreak hj]
      rfl
    · rw [separator_of_mod_ne_zero hj] at hk
      exact absurd hk hfive

/-- CharAt runs along the tokens, the last separator with them. -/
theorem tokensFrom_getElem?_eq_charAt {bytes : List Byte} {t : Nat} (ht : t < tokenStart bytes.length) :
    (tokensFrom 0 bytes)[t]? = some (charAt bytes t) := by
  obtain ⟨j, k, hj, hk, rfl⟩ := exists_tokenStart_add ht
  have hx : bytes[j]? = some bytes[j] := List.getElem?_eq_getElem hj
  rw [tokensFrom_getElem?_tokenStart_add hx hk, charAt_tokenStart_add hx hk]

/-- Settles O46: the text is a part of the tokens from their start. -/
theorem charAtIsFormatText : Obligations.CharAtIsFormatText := by
  intro bytes t ht
  have hne : bytes ≠ [] := by
    rintro rfl
    exact Nat.not_lt_zero t ht
  have htext : t < (formatText bytes).length := ht.trans_eq (length_formatText bytes).symm
  have htokens : t < tokenStart bytes.length := by
    rw [← length_tokensFrom_zero, ← formatText_append_separator hne, List.length_append]
    exact Nat.lt_add_right _ htext
  rw [← List.getElem?_append_left (l₂ := separator bytes.length) htext, formatText_append_separator hne,
    tokensFrom_getElem?_eq_charAt htokens]

/-! The lines (42_formatter R150, R157). -/

section
variable {α : Type} {n : Nat}

theorem toChunks_cons (x : α) (xs : List α) :
    (x :: xs).toChunks (n + 1) = List.toChunks.go (n + 1) xs #[x] #[] := rfl

theorem toChunks_go_append {ys zs : List α} {chunk : Array α} (done : Array (List α))
    (h : chunk.size + ys.length ≤ n) :
    List.toChunks.go n (ys ++ zs) chunk done = List.toChunks.go n zs (chunk ++ ys) done := by
  induction ys generalizing chunk with
  | nil => simp
  | cons y ys ih =>
    rw [List.length_cons] at h
    have hroom : ¬ (chunk.size == n) = true := by simp only [beq_iff_eq]; omega
    rw [List.cons_append, List.toChunks.go, if_neg hroom, ih (by rw [Array.size_push]; omega)]
    simp

theorem toChunks_go_done (xs : List α) (chunk : Array α) (done : Array (List α)) :
    List.toChunks.go n xs chunk done = done.toList ++ List.toChunks.go n xs chunk #[] := by
  induction xs generalizing chunk done with
  | nil => simp [List.toChunks.go]
  | cons x xs ih =>
    simp only [List.toChunks.go]
    split
    · rw [ih, ih (done := #[].push chunk.toList)]
      simp
    · exact ih _ _

theorem toChunks_of_length_le {xs : List α} (hne : xs ≠ []) (h : xs.length ≤ n + 1) :
    xs.toChunks (n + 1) = [xs] := by
  cases xs with
  | nil => exact absurd rfl hne
  | cons x xs =>
    have hfill := toChunks_go_append (n := n + 1) (ys := xs) (zs := []) (chunk := #[x]) #[]
      (by simpa [Nat.add_comm] using h)
    rw [List.append_nil] at hfill
    rw [toChunks_cons, hfill]
    simp [List.toChunks.go]

theorem toChunks_append {xs ys : List α} (h : xs.length = n + 1) (hne : ys ≠ []) :
    (xs ++ ys).toChunks (n + 1) = xs :: ys.toChunks (n + 1) := by
  cases xs with
  | nil => simp at h
  | cons x xs =>
    cases ys with
    | nil => exact absurd rfl hne
    | cons y ys =>
      have hfill := toChunks_go_append (n := n + 1) (ys := xs) (zs := y :: ys) (chunk := #[x]) #[]
        (by simpa [Nat.add_comm] using h.le)
      have hfull : (#[x] ++ xs : Array α).size = n + 1 := by simpa [Nat.add_comm] using h
      rw [List.cons_append, toChunks_cons, hfill, List.toChunks.go, hfull, if_pos (by simp), toChunks_go_done,
        toChunks_cons]
      simp

theorem toChunks_of_lt_length {xs : List α} (h : n + 1 < xs.length) :
    xs.toChunks (n + 1) = xs.take (n + 1) :: (xs.drop (n + 1)).toChunks (n + 1) := by
  have hrest : xs.drop (n + 1) ≠ [] := List.ne_nil_of_length_pos (by rw [List.length_drop]; omega)
  rw [← toChunks_append (List.length_take_of_le h.le) hrest, List.take_append_drop]

theorem toChunks_ne_nil {xs : List α} (hne : xs ≠ []) : xs.toChunks (n + 1) ≠ [] := by
  by_cases h : xs.length ≤ n + 1
  · rw [toChunks_of_length_le hne h]
    exact List.cons_ne_nil _ _
  · rw [toChunks_of_lt_length (not_le.mp h)]
    exact List.cons_ne_nil _ _

end

/-- The tokens of one line, however far it goes. -/
theorem tokensFrom_line {j : Nat} {xs : List Byte} (hne : xs ≠ []) (h : j % 8 + xs.length ≤ 8) :
    tokensFrom j xs = List.intercalate [charComma] (xs.map token) ++ separator (j + xs.length) := by
  induction xs generalizing j with
  | nil => exact absurd rfl hne
  | cons x xs ih =>
    rw [tokensFrom_cons]
    cases xs with
    | nil => simp [tokensFrom]
    | cons y ys =>
      simp only [List.length_cons] at h ih ⊢
      have hmid : (j + 1) % 8 ≠ 0 := by omega
      rw [ih (List.cons_ne_nil y ys) (by omega), separator_of_mod_ne_zero hmid, List.map_cons, List.map_cons,
        List.map_cons, List.intercalate_cons_cons, List.append_assoc _ _ (separator _)]
      congr 3
      omega

theorem formatText_line {xs : List Byte} (hne : xs ≠ []) (h : xs.length ≤ 8) :
    formatText xs = List.intercalate [charComma] (xs.map token) := by
  apply List.append_cancel_right (bs := separator xs.length)
  rw [formatText_append_separator hne, tokensFrom_line hne (by simpa using h), Nat.zero_add]

/-- Full lines come out as they are before any text that follows. -/
theorem formatText_append {xs ys : List Byte} (hne : ys ≠ []) (h : xs.length % 8 = 0) :
    formatText (xs ++ ys) = tokensFrom 0 xs ++ formatText ys := by
  have hlast : separator (xs ++ ys).length = separator ys.length :=
    separator_congr (by rw [List.length_append]; omega)
  have hshift : tokensFrom (0 + xs.length) ys = tokensFrom 0 ys := tokensFrom_congr (by omega) ys
  apply List.append_cancel_right (bs := separator ys.length)
  calc formatText (xs ++ ys) ++ separator ys.length
    _ = tokensFrom 0 (xs ++ ys) := by rw [← hlast, formatText_append_separator (by simp [hne])]
    _ = tokensFrom 0 xs ++ (formatText ys ++ separator ys.length) := by
      rw [tokensFrom_append, hshift, formatText_append_separator hne]
    _ = _ := (List.append_assoc ..).symm

theorem formatText_eq_lines (bytes : List Byte) : formatText bytes = List.intercalate [charComma, charLF]
    ((bytes.toChunks 8).map fun line => List.intercalate [charComma] (line.map token)) := by
  by_cases hne : bytes = []
  · subst hne
    rfl
  by_cases hshort : bytes.length ≤ 8
  · rw [toChunks_of_length_le hne hshort, formatText_line hne hshort]
    simp
  · have hline : (bytes.take 8).length = 8 := List.length_take_of_le (by omega)
    have hlineNe : bytes.take 8 ≠ [] := List.ne_nil_of_length_pos (by omega)
    have hrest : bytes.drop 8 ≠ [] := List.ne_nil_of_length_pos (by rw [List.length_drop]; omega)
    have hmore : (bytes.drop 8).toChunks 8 ≠ [] := toChunks_ne_nil hrest
    calc formatText bytes
      _ = tokensFrom 0 (bytes.take 8) ++ formatText (bytes.drop 8) := by
        rw [← formatText_append hrest (by rw [hline]), List.take_append_drop]
      _ = _ := by
        rw [tokensFrom_line hlineNe (by rw [hline]), separator_of_mod_eq_zero (by rw [hline]),
          formatText_eq_lines (bytes.drop 8), toChunks_of_lt_length (not_le.mp hshort), List.map_cons,
          List.intercalate_cons_of_ne_nil (by simpa using hmore)]
termination_by bytes.length
decreasing_by rw [List.length_drop]; omega

/-! The character codes (42_formatter R152). -/

theorem toNat_highNibble (x : Byte) : (x.extractLsb' 4 4).toNat = x.toNat / 16 := by
  rw [BitVec.extractLsb'_toNat, Nat.shiftRight_eq_div_pow]
  omega

theorem toNat_lowNibble (x : Byte) : (x.extractLsb' 0 4).toNat = x.toNat % 16 := by
  rw [BitVec.extractLsb'_toNat, Nat.shiftRight_zero]

/-- Settles O47: the codes are those of the digits in numbers, and the lines come from cutting off eight tokens at a
time. -/
theorem textIsWrappedTokens : Obligations.TextIsWrappedTokens := by
  unfold Obligations.TextIsWrappedTokens
  intro digit tokenOf
  have htoken : token = tokenOf := funext fun x => by
    rw [token, highDigit, lowDigit, hexDigit, hexDigit, toNat_highNibble, toNat_lowNibble]
    rfl
  refine ⟨congrFun htoken, rfl, rfl, fun bytes => ?_⟩
  rw [formatText_eq_lines, htoken]
  rfl

end Sys2Proof.Machine
end

section
/-! FORMAT and TXT: each outcome with its whole next state and response, and the characters a host collects
(42_formatter R155, R156). -/

namespace Sys2Proof.Machine

open Host

section
variable {s : State}

/-! FORMAT. -/

theorem execFormat_of_encoded (encoded : s.phase = .encoded) : execFormat s =
    .next { s with tlen := BitVec.ofNat 32 (textLen s.plen.toNat), tidx := 0, rsp := some 0 } := if_pos encoded

theorem execFormat_of_not_encoded (hphase : s.phase ≠ .encoded) :
    execFormat s = .next (rejectedAs 4 s) := if_neg hphase

/-- The length of the text fits TLEN (42_formatter R151). -/
theorem toNat_ofNat_textLen_plen (hs : s.Inv) :
    (BitVec.ofNat 32 (textLen s.plen.toNat)).toNat = textLen s.plen.toNat :=
  toNat_ofNat_textLen (hs.packedLength.2.trans pbufBytes_range.2)

/-! TXT. -/

@[simp] theorem packedBytes_length (s : State) : (packedBytes s).length = s.plen.toNat := by simp [packedBytes]

theorem memRead_eq_packedBytes (hs : s.Inv) {k : Nat} (hk : k < s.plen.toNat) :
    memRead k s = .ok ((packedBytes s).getD k 0) := by
  obtain ⟨v, hv⟩ := memRead_of_lt_plen hs hk
  obtain ⟨-, hread⟩ := memRead_ok.mp hv
  rw [hv, packedBytes, List.getD_eq_getElem?_getD, List.getElem?_map, List.getElem?_range hk, Option.map_some, hread]
  rfl

/-- The one byte that TXT reads gives the character of the whole buffer's text (42_formatter R153, R156). -/
theorem textChar_eq_charAt (hs : s.Inv) {t : Nat} (ht : t < textLen s.plen.toNat) :
    textChar t s = .ok (charAt (packedBytes s) t) := by
  rw [textChar, charAt_eq_glyphChar]
  cases hglyph : glyphAt t with
  | fixed c => rfl
  | high j =>
    dsimp only
    rw [memRead_eq_packedBytes hs (glyphAt_byte_lt ht (.inl hglyph))]
    rfl
  | low j =>
    dsimp only
    rw [memRead_eq_packedBytes hs (glyphAt_byte_lt ht (.inr hglyph))]
    rfl

/-- Text is pending only after a FORMAT (10_state R44). -/
theorem toNat_tlen_of_pending (hs : s.Inv) (pending : s.tidx.toNat < s.tlen.toNat) :
    s.tlen.toNat = textLen s.plen.toNat := by
  refine (hs.textLength fun hzero => ?_).2
  rw [hzero] at pending
  exact Nat.not_lt_zero _ pending

theorem runWord_txt (s : State) : runWord (encode .txt) s = execTxt s :=
  runWord_decoded (decodeEncodeRoundTrip .txt) s

theorem execTxt_of_pending (hs : s.Inv) (pending : s.tidx.toNat < s.tlen.toNat) : execTxt s =
    .next { s with tidx := s.tidx + 1, rsp := some (textResponse (charAt (packedBytes s) s.tidx.toNat)) } := by
  have ht : s.tidx.toNat < textLen s.plen.toNat := pending.trans_eq (toNat_tlen_of_pending hs pending)
  rw [execTxt, if_pos pending, textChar_eq_charAt hs ht]
  rfl

theorem execTxt_of_done (done : s.tlen.toNat ≤ s.tidx.toNat) : execTxt s = .next { s with rsp := some 0 } :=
  if_neg (not_lt.mpr done)

/-! The characters a host collects. -/

/-- What TXT has still to return of the text that FORMAT started. -/
def pendingText (s : State) : List Byte := ((formatText (packedBytes s)).take s.tlen.toNat).drop s.tidx.toNat

theorem toNat_tlen_le (hs : s.Inv) : s.tlen.toNat ≤ (formatText (packedBytes s)).length := by
  rw [length_formatText, packedBytes_length]
  by_cases hzero : s.tlen = 0
  · rw [hzero]
    exact Nat.zero_le _
  · obtain ⟨-, hlength⟩ := hs.textLength hzero
    exact hlength.le

theorem pendingText_eq_nil_iff (hs : s.Inv) : pendingText s = [] ↔ s.tlen.toNat ≤ s.tidx.toNat := by
  rw [pendingText, List.drop_eq_nil_iff, List.length_take_of_le (toNat_tlen_le hs)]

theorem pendingText_of_pending (hs : s.Inv) (pending : s.tidx.toNat < s.tlen.toNat) : pendingText s =
    charAt (packedBytes s) s.tidx.toNat :: pendingText { s with tidx := s.tidx + 1 } := by
  have ht : s.tidx.toNat < textLen (packedBytes s).length := by
    rw [packedBytes_length, ← toNat_tlen_of_pending hs pending]
    exact pending
  have hchar : ((formatText (packedBytes s)).take s.tlen.toNat)[s.tidx.toNat]? =
      some (charAt (packedBytes s) s.tidx.toNat) := by
    rw [List.getElem?_take_of_lt pending, charAtIsFormatText _ _ ht]
  obtain ⟨hlt, hget⟩ := List.getElem?_eq_some_iff.mp hchar
  rw [pendingText, List.drop_eq_getElem_cons hlt, hget, ← toNat_add_one_of_lt pending]
  rfl

/-- As many TXT as characters are pending return them in order. -/
theorem session_txt_pending (hs : s.Inv) : session (List.replicate (pendingText s).length (encode .txt))
    { s with rsp := none } = .next ({ s with tidx := s.tlen, rsp := none }, (pendingText s).map textResponse) := by
  induction htext : pendingText s generalizing s with
  | nil =>
    have hend : s.tidx = s.tlen :=
      BitVec.eq_of_toNat_eq (le_antisymm hs.textIndex ((pendingText_eq_nil_iff hs).mp htext))
    rw [← hend]
    rfl
  | cons c cs ih =>
    have pending : s.tidx.toNat < s.tlen.toNat := by
      rw [← not_le, ← pendingText_eq_nil_iff hs, htext]
      exact List.cons_ne_nil c cs
    obtain ⟨rfl, hrest⟩ := List.cons.inj (htext.symm.trans (pendingText_of_pending hs pending))
    have hword := (runWord_txt { s with rsp := none }).trans
      (execTxt_of_pending (s := { s with rsp := none }) { hs with } pending)
    have hnext := ih (txt_inv hs pending) hrest.symm
    exact session_cons_next.mpr ⟨_, _, hword, hnext, rfl⟩

/-- Every TXT at the end of the text returns 0. -/
theorem session_txt_done (done : s.tlen.toNat ≤ s.tidx.toNat) (extra : Nat) :
    session (List.replicate extra (encode .txt)) { s with rsp := none } =
      .next ({ s with rsp := none }, List.replicate extra 0) := by
  induction extra with
  | zero => rfl
  | succ extra ih =>
    have hword := (runWord_txt { s with rsp := none }).trans
      (execTxt_of_done (s := { s with rsp := none }) done)
    exact session_cons_next.mpr ⟨_, _, hword, ih, rfl⟩

/-- The responses to any number of TXT that is enough for the pending text. -/
theorem session_txt (hs : s.Inv) (extra : Nat) :
    session (List.replicate ((pendingText s).length + extra) (encode .txt)) { s with rsp := none } =
      .next ({ s with tidx := s.tlen, rsp := none }, (pendingText s).map textResponse ++ List.replicate extra 0) := by
  rw [List.replicate_add]
  exact session_append_next.mpr ⟨_, _, _, session_txt_pending hs,
    session_txt_done (s := { s with tidx := s.tlen }) le_rfl extra, rfl⟩

/-- After FORMAT the whole text is pending. -/
theorem pendingText_of_format (hs : s.Inv) :
    pendingText { s with tlen := BitVec.ofNat 32 (textLen s.plen.toNat), tidx := 0 } = formatText (packedBytes s) := by
  have hlength : (formatText (packedBytes s)).length = textLen s.plen.toNat := by
    rw [length_formatText, packedBytes_length]
  rw [pendingText, toNat_ofNat_textLen_plen hs]
  exact List.take_of_length_le hlength.le

end

/-- Settles O15: PHASE decides between the rejection and the start of the text, and the row has no payload. -/
theorem formatStartsText : Obligations.FormatStartsText := fun s hs =>
  ⟨fun encoded => ⟨_, toNat_ofNat_textLen_plen hs, execFormat_of_encoded encoded⟩, execFormat_of_not_encoded,
    fun _ hop => (runWord_bare (k := 9) rfl rfl hop s).trans (ite_not _ _ _).symm⟩

/-- Settles O16: TIDX decides between the character and the end, and the row has no payload. -/
theorem txtReturnsNextCharacter : Obligations.TxtReturnsNextCharacter := fun s hs =>
  ⟨fun pending => ⟨_, toNat_add_one_of_lt pending, execTxt_of_pending hs pending⟩, execTxt_of_done,
    fun _ hop => (runWord_bare (k := 10) rfl rfl hop s).trans (ite_not _ _ _).symm⟩

/-- Settles O48: FORMAT makes the whole text pending, TXT returns it, and then the end. -/
theorem collectedTextIsFormatText : Obligations.CollectedTextIsFormatText := by
  intro s extra hs encoded
  dsimp only
  have hformat := (runWord_decoded (decodeEncodeRoundTrip .format) s).trans (execFormat_of_encoded encoded)
  have htxt := session_txt (format_inv hs encoded) extra
  rw [pendingText_of_format hs] at htxt
  exact ⟨_, session_cons_next.mpr ⟨_, _, hformat, htxt, rfl⟩, rfl, encoded⟩

end Sys2Proof.Machine
end

section
/-! RDPB, RDREG and CLRERR: each outcome with its whole next state and response (43_readback R170 to R172). -/

namespace Sys2Proof.Machine

open Host

section
variable {s : State}

/-! RDPB. -/

theorem execRdpb_of_not_encoded (hphase : s.phase ≠ .encoded) (idx : BitVec 24) :
    execRdpb idx s = .next (rejectedAs 4 s) := if_neg hphase

theorem execRdpb_of_plen_le (encoded : s.phase = .encoded) {idx : BitVec 24} (outside : s.plen.toNat ≤ idx.toNat) :
    execRdpb idx s = .next (rejectedAs 16 s) := by
  rw [execRdpb, if_pos encoded, if_pos outside]
  rfl

theorem execRdpb_of_lt_plen (encoded : s.phase = .encoded) {idx : BitVec 24} (below : idx.toNat < s.plen.toNat)
    {v : Byte} (hread : memRead idx.toNat s = .ok v) :
    execRdpb idx s = .next { s with rsp := some (v.setWidth 32) } := by
  rw [execRdpb, if_pos encoded, if_neg (not_le.mpr below), hread]
  rfl

/-- A packed byte uses only its A_BS low bits (10_state R44, 41_encoder R123). -/
theorem packedByte_lt (hs : s.Inv) {k : Nat} (hk : k < s.plen.toNat) {v : Byte} (hread : s.pbuf.read k = some v) :
    v.toNat < 2 ^ s.aBs.toNat := by
  obtain ⟨u, hu, hbits⟩ := hs.packedBits k hk
  obtain rfl : v = u := Option.some.inj (hread.symm.trans hu)
  refine Nat.lt_pow_two_of_testBit _ fun j hj => Bool.eq_false_iff.mpr fun hbit => ?_
  obtain ⟨i, -, -, hpos⟩ := hbits j hbit
  have hlt := bitPos_lt i (toNat_pos_of_legal hs.blockSizes.2)
  exact absurd hj (not_le.mpr (hpos ▸ hlt))

/-! RDREG. -/

/-- The registers that RDREG reads, in the order of their numbers (10_state R43). -/
def registerTable (s : State) : List Word :=
  [s.width.setWidth 32, s.height.setWidth 32, s.bsize.setWidth 32, s.thresh.setWidth 32, s.invert.setWidth 32,
    s.bg.setWidth 32, statusView s, s.npix, s.plen, s.pidx, s.tlen, s.tidx, s.lum.setWidth 32, acfgView s]

theorem regValue_eq_getElem? (n : BitVec 4) (s : State) : regValue n s = (registerTable s)[n.toNat]? := by
  unfold regValue
  generalize n.toNat = k
  match k with
  | 0 | 1 | 2 | 3 | 4 | 5 | 6 | 7 | 8 | 9 | 10 | 11 | 12 | 13 => rfl
  | _ + 14 => rfl

theorem execRdreg_of_some {n : BitVec 4} {v : Word} (h : regValue n s = some v) :
    execRdreg n s = .next { s with rsp := some v } := by
  rw [execRdreg, h]
  rfl

theorem execRdreg_of_none {n : BitVec 4} (h : regValue n s = none) : execRdreg n s = .next (rejectedAs 1 s) := by
  rw [execRdreg, h]
  exact reject_ill s

end

/-- Settles O17: PHASE and then PLEN decide the outcome, the invariant bounds the byte, and the row has four reserved
bits. -/
theorem readPackedByte : Obligations.ReadPackedByte := by
  intro s hs
  refine ⟨fun idx hphase => execRdpb_of_not_encoded hphase idx, fun idx encoded => execRdpb_of_plen_le encoded,
    fun idx encoded below => ?_, fun w hop => runWord_reserved (k := 11) rfl rfl hop s⟩
  obtain ⟨v, hread⟩ := memRead_of_lt_plen hs below
  obtain ⟨-, hvalue⟩ := memRead_ok.mp hread
  exact ⟨v, hvalue, packedByte_lt hs below hvalue, execRdpb_of_lt_plen encoded below hread⟩

/-- Settles O18: the number decides between the table's value and the rejection, and the row has 24 reserved bits. -/
theorem readRegisterTable : Obligations.ReadRegisterTable := by
  intro s
  refine ⟨fun n v hvalue => execRdreg_of_some ((regValue_eq_getElem? n s).trans hvalue), fun n hn => ?_,
    fun w hop => runWord_reserved (k := 12) rfl rfl hop s⟩
  have hreserved : 14 ≤ n.toNat := by
    obtain rfl | rfl := hn <;> decide
  exact execRdreg_of_none ((regValue_none_iff n s).mpr hreserved)

/-- Settles O19: CLRERR always accepts, its flags are cleared bit by bit, and the row has 23 reserved bits. -/
theorem clearErrorsByMask : Obligations.ClearErrorsByMask := fun s =>
  ⟨fun mask => ⟨clearFlags s.err mask, fun j _ => clearFlags_bit s.err mask j, rfl⟩,
    fun _ hop => runWord_reserved (k := 13) rfl rfl hop s⟩

end Sys2Proof.Machine
end

section
/-! Errors and completion: the error table decides each command's outcome, a completed command raises at most one flag,
and no step stops under the invariants (60_exceptions R190 to R197, 93_implementation_defined I1). -/

namespace Sys2Proof.Machine

open Host

/-! The error table. -/

section
variable {w : Word} {s : State}

/-- In each case of the table the command is rejected, whatever else the state holds (60_exceptions R190, R191). -/
theorem runWord_of_errorOf_eq_some {code : ErrorCode} (h : errorOf w s = some code) :
    runWord w s = .next (rejected code s) := by
  cases hd : decode w with
  | none =>
    obtain rfl : .ill = code := by simpa [errorOf, hd] using h
    exact runWord_illegal hd s
  | some i =>
    rw [runWord_decoded hd]
    cases i with
    | setbs x =>
      obtain ⟨hvalue, rfl⟩ : (x ≠ 2 ∧ x ≠ 4 ∧ x ≠ 8) ∧ .cfg = code := by simpa [errorOf, hd] using h
      exact (execSetbs_eq x s).trans (if_pos hvalue)
    | start =>
      obtain ⟨exceeds, rfl⟩ : Config.pbufBytes < ceilDiv (s.width.toNat * s.height.toNat) s.bsize.toNat ∧
        .cap = code := by simpa [errorOf, hd] using h
      exact execStart_of_exceeds exceeds
    | pixel r g b =>
      obtain ⟨hphase, rfl⟩ : s.phase ≠ .encoding ∧ .seq = code := by simpa [errorOf, hd] using h
      exact execPixel_of_not_encoding hphase r g b
    | format =>
      obtain ⟨hphase, rfl⟩ : s.phase ≠ .encoded ∧ .seq = code := by simpa [errorOf, hd] using h
      exact execFormat_of_not_encoded hphase
    | rdpb idx =>
      by_cases encoded : s.phase = .encoded
      · obtain ⟨outside, rfl⟩ : s.plen.toNat ≤ idx.toNat ∧ .range = code := by
          simpa [errorOf, hd, encoded] using h
        exact execRdpb_of_plen_le encoded outside
      · obtain rfl : .seq = code := by simpa [errorOf, hd, encoded] using h
        exact execRdpb_of_not_encoded encoded idx
    | rdreg n =>
      obtain ⟨reserved, rfl⟩ : 14 ≤ n.toNat ∧ .ill = code := by simpa [errorOf, hd] using h
      exact execRdreg_of_none ((regValue_none_iff n s).mpr reserved)
    | _ => simp [errorOf, hd] at h

/-- Every flag of `t` stood in `s` already. -/
def RaisesNoFlag (s t : State) : Prop := ∀ e, t.err.getLsbD e = true → s.err.getLsbD e = true

theorem raisesNoFlag_of_err_eq {t : State} (h : t.err = s.err) : RaisesNoFlag s t := fun _ he => h ▸ he

theorem raisesNoFlag_of_clearFlags {t : State} {mask : BitVec 5} (h : t.err = clearFlags s.err mask) :
    RaisesNoFlag s t := by
  intro e he
  rw [h, clearFlags_bit, Bool.and_eq_true] at he
  exact he.1

theorem RaisesNoFlag.err_eq_zero {t : State} (h : RaisesNoFlag s t) (herr : s.err = 0) : t.err = 0 := by
  apply BitVec.eq_of_getLsbD_eq
  intro e _
  by_contra hbit
  have hold : s.err.getLsbD e = true := h e (by simpa using hbit)
  simp [herr] at hold

theorem Effect.raisesNoFlag {i : Instr} {u : State} (h : Effect s i u) : RaisesNoFlag s u := by
  cases h with
  | clrerr mask => exact raisesNoFlag_of_clearFlags rfl
  | _ => exact raisesNoFlag_of_err_eq rfl

/-- In no case of the table the command is accepted (60_exceptions R190). -/
theorem runWord_of_errorOf_eq_none (hs : s.Inv) (h : errorOf w s = none) :
    ∃ t, runWord w s = .next t ∧ RaisesNoFlag s t := by
  cases hd : decode w with
  | none => simp [errorOf, hd] at h
  | some i =>
    rw [runWord_decoded hd]
    cases i with
    | setbs x =>
      have legal : ¬ (x ≠ 2 ∧ x ≠ 4 ∧ x ≠ 8) := by simpa [errorOf, hd] using h
      exact ⟨_, (execSetbs_eq x s).trans (if_neg legal), raisesNoFlag_of_err_eq rfl⟩
    | start =>
      have fits : ceilDiv (s.width.toNat * s.height.toNat) s.bsize.toNat ≤ Config.pbufBytes := by
        simpa [errorOf, hd] using h
      obtain ⟨m, -, hexec⟩ := execStart_of_fits rfl rfl fits
      exact ⟨_, hexec, raisesNoFlag_of_err_eq rfl⟩
    | pixel r g b =>
      have encoding : s.phase = .encoding := by simpa [errorOf, hd] using h
      obtain ⟨old, -, hexec⟩ := execPixel_of_encoding hs encoding r g b
      exact ⟨_, hexec, raisesNoFlag_of_err_eq rfl⟩
    | format =>
      have encoded : s.phase = .encoded := by simpa [errorOf, hd] using h
      exact ⟨_, execFormat_of_encoded encoded, raisesNoFlag_of_err_eq rfl⟩
    | txt =>
      by_cases pending : s.tidx.toNat < s.tlen.toNat
      · exact ⟨_, execTxt_of_pending hs pending, raisesNoFlag_of_err_eq rfl⟩
      · exact ⟨_, execTxt_of_done (not_lt.mp pending), raisesNoFlag_of_err_eq rfl⟩
    | rdpb idx =>
      have encoded : s.phase = .encoded := by
        by_contra hphase
        simp [errorOf, hd, hphase] at h
      have below : idx.toNat < s.plen.toNat := by simpa [errorOf, hd, encoded] using h
      obtain ⟨v, hread⟩ := memRead_of_lt_plen hs below
      exact ⟨_, execRdpb_of_lt_plen encoded below hread, raisesNoFlag_of_err_eq rfl⟩
    | rdreg n =>
      have hn : ¬ 14 ≤ n.toNat := by simpa [errorOf, hd] using h
      obtain ⟨v, hvalue⟩ := Option.ne_none_iff_exists'.mp (mt (regValue_none_iff n s).mp hn)
      exact ⟨_, execRdreg_of_some hvalue, raisesNoFlag_of_err_eq rfl⟩
    | clrerr mask => exact ⟨_, rfl, raisesNoFlag_of_clearFlags rfl⟩
    | _ => exact ⟨_, rfl, raisesNoFlag_of_err_eq rfl⟩

end

/-- Settles O22: the table decides between the rejection and the effect, and either keeps the invariants, under which
every command completes. -/
theorem errorsAreExactAndAtomic : Obligations.ErrorsAreExactAndAtomic := by
  refine fun w s => ⟨fun code => runWord_of_errorOf_eq_some, runWord_of_errorOf_eq_none, fun hs t w' hword => ?_⟩
  have ht : t.Inv := runWord_keeps_inv hs hword
  exact runWord_next (s := { t with rsp := none }) { ht with } w'

/-! One error per command. -/

theorem raiseFlag_zero_cases (code : ErrorCode) : raiseFlag 0 code = 1 ∨ raiseFlag 0 code = 2 ∨
    raiseFlag 0 code = 4 ∨ raiseFlag 0 code = 8 ∨ raiseFlag 0 code = 16 := by
  cases code <;> decide

/-- Settles O23: a rejection raises its one flag and an effect none; RDPB looks at PHASE before PLEN. -/
theorem atMostOneErrorPerCommand : Obligations.AtMostOneErrorPerCommand := by
  refine ⟨fun w s t herr hword => ?_, fun idx s herr hphase _ => ?_⟩
  · obtain ⟨code, rfl⟩ | ⟨i, u, r, -, heffect, rfl⟩ := runWord_completes hword
    · rw [rejected, herr]
      exact .inr (raiseFlag_zero_cases code)
    · exact .inl (heffect.raisesNoFlag.err_eq_zero herr)
  · refine ⟨_, execRdpb_of_not_encoded hphase idx, ?_⟩
    rw [rejectedAs, herr]
    rfl

/-! Completion of a step. -/

theorem edge_next {s : State} (hs : s.Inv) (p : Pins) : ∃ t, edge p s = .next t := by
  cases hrst : p.rst with
  | true => exact ⟨_, edge_reset hrst⟩
  | false =>
    cases hrsp : s.rsp with
    | none =>
      cases hvalid : p.cmdValid with
      | true => exact edge_command hrst hvalid hrsp ▸ runWord_next hs p.cmdData
      | false => exact ⟨_, edge_quiet hrst hvalid hrsp⟩
    | some r =>
      cases hready : p.rspReady with
      | true => exact ⟨_, edge_take hrst hrsp hready⟩
      | false => exact ⟨_, edge_hold hrst hrsp hready⟩

/-- Settles O29: only an edge that accepts a command could stop, and under the invariants no command does. -/
theorem stepNeverStops : Obligations.StepNeverStops := by
  intro s hs
  cases hin : s.inputs with
  | nil => exact ⟨s, step_idle hin⟩
  | cons p rest =>
    rw [step_input hin]
    exact edge_next (s := { s with inputs := rest }) { hs with } p

end Sys2Proof.Machine
end

section
/-! A conversion as the count of its missing pixels: ENCODING is the phase in which some are missing, and each PIXEL
brings one of them (70_reset_and_hazards R214). -/

namespace Sys2Proof.Machine

/-- How many pixels the image still lacks (10_state R33). -/
def missingPixels (s : State) : Nat := s.npix.toNat - s.pidx.toNat

section
variable {s t : State}

/-- No pixel is missing in IDLE, where both counts are 0, nor in ENCODED, where they are equal (10_state R44). -/
theorem phase_eq_encoding_iff_missing (hs : s.Inv) : s.phase = .encoding ↔ 0 < missingPixels s := by
  obtain ⟨-, hencoding, hencoded⟩ := hs.pixelIndex
  unfold missingPixels
  cases hphase : s.phase with
  | idle =>
    obtain ⟨hnpix, -⟩ := hs.idleEmpty hphase
    simp [hnpix]
  | encoding => exact iff_of_true rfl (Nat.sub_pos_of_lt (hencoding hphase))
  | encoded => simp [hencoded hphase]

theorem SameConversion.missingPixels_eq (h : SameConversion s t) : missingPixels t = missingPixels s := by
  obtain ⟨hnpix, -, hpidx⟩ := h.counts
  rw [missingPixels, hnpix, hpidx, missingPixels]

theorem missingPixels_pixelTaken (hs : s.Inv) (encoding : s.phase = .encoding) (p : Pixel) (old : Byte) :
    missingPixels (pixelTaken p old s) = missingPixels s - 1 := by
  rw [missingPixels, pixelTaken_npix, pixelTaken_pidx hs encoding, Nat.sub_add_eq, missingPixels]

/-- A PIXEL without a missing pixel is rejected, so that the count stays 0. -/
theorem missingPixels_runWord {w : Word} (hs : s.Inv) (hstart : decode w ≠ some .start) (hrun : runWord w s = .next t) :
    missingPixels t = missingPixels s - (pixelOf w).toList.length := by
  cases hpixel : pixelOf w with
  | none => exact (runWord_sameConversion hstart hpixel hrun).missingPixels_eq
  | some p =>
    have hexec : execPixel p.r p.g p.b s = .next t :=
      (runWord_decoded (pixelOf_eq_some_iff.mp hpixel) s).symm.trans hrun
    by_cases encoding : s.phase = .encoding
    · obtain ⟨old, -, htaken⟩ := execPixel_of_encoding hs encoding p.r p.g p.b
      obtain rfl := Host.Outcome.next.inj (htaken.symm.trans hexec)
      exact missingPixels_pixelTaken hs encoding p old
    · obtain rfl := Host.Outcome.next.inj ((execPixel_of_not_encoding encoding p.r p.g p.b).symm.trans hexec)
      have hnone : missingPixels s = 0 :=
        Nat.eq_zero_of_not_pos (mt (phase_eq_encoding_iff_missing hs).mpr encoding)
      calc missingPixels (rejectedAs 4 s)
        _ = missingPixels s := rfl
        _ = missingPixels s - (some p).toList.length := by rw [hnone, Nat.zero_sub]

theorem missingPixels_responseTaken (s : State) : missingPixels { s with rsp := none } = missingPixels s := rfl

theorem missingPixels_session {ws rs : List Word} (hs : s.Inv) (hws : ∀ w ∈ ws, decode w ≠ some .start)
    (hsession : session ws s = .next (t, rs)) :
    t.Inv ∧ missingPixels t = missingPixels s - (pixelsIn ws).length := by
  induction ws generalizing s rs with
  | nil =>
    cases hsession
    exact ⟨hs, rfl⟩
  | cons w ws ih =>
    obtain ⟨hw, hws⟩ := List.forall_mem_cons.mp hws
    obtain ⟨s1, rs', hword, hrest, -⟩ := session_cons_next.mp hsession
    have hs1 : ({ s1 with rsp := none } : State).Inv := { runWord_keeps_inv hs hword with }
    obtain ⟨ht, hmissing⟩ := ih hs1 hws hrest
    refine ⟨ht, ?_⟩
    rw [hmissing, missingPixels_responseTaken, missingPixels_runWord hs hw hword, pixelsIn_cons, List.length_append,
      Nat.sub_sub]

end

/-- Settles O44: after the commands PHASE is read off the pixels still missing, and outside ENCODED both commands are
SEQ. -/
theorem unfinishedConversionWaits : Obligations.UnfinishedConversionWaits := by
  intro ws s t rs hs _ hws hsession
  obtain ⟨ht, hmissing⟩ := missingPixels_session hs hws hsession
  have hwaits : t.phase = .encoding ↔ s.pidx.toNat + (pixelsIn ws).length < s.npix.toNat := by
    rw [phase_eq_encoding_iff_missing ht, hmissing, missingPixels, Nat.sub_sub, Nat.sub_pos_iff_lt]
  refine ⟨hwaits, fun hfewer => ?_⟩
  have hphase : t.phase ≠ .encoded := by simp [hwaits.mpr hfewer]
  exact ⟨execFormat_of_not_encoded hphase, execRdpb_of_not_encoded hphase⟩

end Sys2Proof.Machine
end

section
/-! The encoding examples of the spec (30_encoding R84, R89): each word is the one its command is encoded as. -/

namespace Sys2Proof

/-- By the two round trips, decoding a word is asking which command has it as its encoding. -/
theorem decode_eq_some_iff {w : Word} {i : Instr} : decode w = some i ↔ encode i = w := by
  constructor
  · exact encodeDecodeRoundTrip w i
  · rintro rfl
    exact decodeEncodeRoundTrip i

/-- Settles O6: each command is encoded as its example word. -/
theorem sampleWordsDecode : Obligations.SampleWordsDecode := by
  simp only [Obligations.SampleWordsDecode, decode_eq_some_iff]
  decide

end Sys2Proof
end
